-- ==== Sys2Proof/Word.lean ====
section
/-! DEFINITION. The widths in which CRCACC holds and carries its values (00_scope.md R5, 10_state.md R20,
30_encoding.md R60). Every value is unsigned; bit 0 is the least significant (R9, R10). -/

namespace Sys2Proof

/-- The storage width of every numeric register and table entry: `WMAX = 64` bits (R5, R20). -/
abbrev Word := BitVec 64

/-- One input byte: the `BYTE = 8` bits the datapath folds at a time (R5). -/
abbrev Byte := BitVec 8

/-- One payload element `E[8:0]` of the data channel (R68). -/
abbrev Element := BitVec 9

/-- One command word `CW[219:0]` of the command channel (R62). -/
abbrev CommandWord := BitVec 220

/-- One response word `RW[65:0]` of the response channel (R69). -/
abbrev ResponseWord := BitVec 66

end Sys2Proof
end

