-- ==== Sys2Proof/Config.lean ====
section
/-! DEFINITION. The structural parameters of one CRCACC block (00_scope.md R5). They are fixed; the run-time
parameters are operands of CONFIG and live in State. The spec leaves no result of any command open, so no free value
stands here; the latency of the handshake, which it does leave open, is an argument of the edge-level machine
(Machine/Wire.lean). -/

namespace Sys2Proof.Config

/-- `WMAX`: the largest CRC width, and the storage width of every numeric register (R5). -/
abbrev wmax : Nat := 64

/-- `BYTE`: bits folded per datapath step (R5). -/
abbrev byteBits : Nat := 8

/-- `TABLE_ENTRIES`: entries of the lookup table, one per byte value (R5, R33). -/
abbrev tableEntries : Nat := 256

/-- `LEN_BITS`: width of the PROCESS length field, the spec's default of an open parameter (R5, D7; DESIGN CHOICE,
log entry 9, safe: no rule of the semantics depends on it). -/
abbrev lenBits : Nat := 16

/-- The `LEN` field of a command word, `LEN_BITS` wide (R62, R66). -/
abbrev Length := BitVec 16

/-- The largest payload one PROCESS command word can announce (R5, R66, R75). -/
abbrev maxPayload : Nat := 65535

/-- `CW_BITS`: width of the command word (R5, R62). -/
abbrev cwBits : Nat := 220

/-- Whole bytes that carry one command word when it is written out as bytes (DESIGN CHOICE, log entry 10). -/
abbrev cwBytes : Nat := 28

end Sys2Proof.Config
end

