-- ==== Sys2Proof/Syntax.lean ====
section
/-! DEFINITION. The commands of CRCACC, one constructor for each row of the opcode table (30_encoding.md R63), a
command together with its payload (R67, R72), and the assembler lines in which programs are written down (R73). -/

namespace Sys2Proof

/-- The four commands with the operands their command word carries (R63, R64). The elements of a PROCESS are not in its
command word: they follow on the data channel (R67). -/
inductive Instr where
  /-- `CONFIG`, the source's `Construct` (R90). -/
  | config (width : BitVec 8) (poly init : Word) (refin refout : Bool) (xorout : Word)
  /-- `RESET`, the source's `reset()` (R110); not the hardware reset input. -/
  | reset
  /-- `PROCESS` of `LEN` payload elements, the source's `process(bytes)` (R115). -/
  | process (len : Config.Length)
  /-- `CHECKSUM`, the source's `checksum()` (R140). -/
  | checksum
deriving DecidableEq, Repr

/-- How many payload elements follow the command word (R67, R72). -/
def Instr.payloadLength : Instr → Nat
  | .config _ _ _ _ _ _ => 0
  | .reset => 0
  | .process len => len.toNat
  | .checksum => 0

/-- A whole command as the host issues it: the command word's command and the payload behind it (R72). -/
structure Transaction where
  instr : Instr
  payload : List Element
deriving DecidableEq, Repr

/-- One `<elem>` of a PROCESS line: an integer, or the word `NB` for a position that is not a byte (R73). -/
inductive LineElement where
  | byte (value : Nat)
  | nb
deriving DecidableEq, Repr

/-- The operands of a CONFIG line. The optional ones take the defaults of R74 when the line omits them. -/
structure ConfigLine where
  width : Nat
  poly : Nat
  init : Nat := 0
  refin : Bool := false
  refout : Bool := false
  xorout : Nat := 0
deriving DecidableEq, Repr

/-- One line of the assembler notation (R73); `text` is `PROCESS "<text>"` (R76). -/
inductive Line where
  | config (operands : ConfigLine)
  | reset
  | process (elements : List LineElement)
  | text (chars : String)
  | checksum
deriving DecidableEq, Repr

end Sys2Proof
end

