-- ==== Sys2Proof/WellFormed.lean ====
section
/-! DEFINITION. What is well formed. A command word cannot be ill formed: all four opcodes are assigned, no field is
reserved, and every bit pattern of an operand is a number (30_encoding.md R64, R71, 40_config.md R102), so `Instr`
needs no check of its own. What can be ill formed is a command with its payload (R67) and an assembler line (R73). -/

namespace Sys2Proof

/-- The payload holds exactly the elements the command word announces: `LEN` for PROCESS, none otherwise (R67, R72). -/
def Transaction.wf (t : Transaction) : Bool :=
  t.payload.length == t.instr.payloadLength

/-- `<elem>` is an integer 0x00..0xFF or `NB` (R73). What the assembler does with another integer the spec leaves open
(log entry 14). -/
def LineElement.wf : LineElement → Bool
  | .byte value => decide (value ≤ 0xFF)
  | .nb => true

/-- Each operand of a CONFIG line fits the field that carries it (R62, R73). That a line whose integer does not fit is
ill formed is the model's choice: the spec does not say what the assembler does with it (DESIGN CHOICE, log entry 14).
A width that fits the field and is not in 1..64 is well formed: the block answers it with `InvalidParameter` (R91). -/
def ConfigLine.wf (c : ConfigLine) : Bool :=
  decide (c.width < 2 ^ 8) && decide (c.poly < 2 ^ 64) && decide (c.init < 2 ^ 64) && decide (c.xorout < 2 ^ 64)

/-- Well-formed assembler lines (R73). A PROCESS line may be of any length (R75). -/
def Line.wf : Line → Bool
  | .config operands => operands.wf
  | .reset => true
  | .process elements => elements.all LineElement.wf
  | .text _ => true
  | .checksum => true

end Sys2Proof
end

