-- ==== Sys2Proof/Decode.lean ====
section
/-! DEFINITION. Decoding a command word, total on all 2^220 words (30_encoding.md R62 to R64), its reading from bytes,
which rejects by name, and the encoder that writes the canonical word of a command (R62, R64, R78). -/

namespace Sys2Proof

/-! ### The fields of a command word (R62) -/

/-- `OP = CW[1:0]`. -/
def CommandWord.op (cw : CommandWord) : BitVec 2 := cw.extractLsb' 0 2
/-- `REFIN = CW[2]`, 1 is true (R66). -/
def CommandWord.refin (cw : CommandWord) : Bool := cw.getLsbD 2
/-- `REFOUT = CW[3]`, 1 is true (R66). -/
def CommandWord.refout (cw : CommandWord) : Bool := cw.getLsbD 3
/-- `WIDTH = CW[11:4]`, unsigned, used as it stands (R65). -/
def CommandWord.width (cw : CommandWord) : BitVec 8 := cw.extractLsb' 4 8
/-- `LEN = CW[27:12]`, unsigned (R66). -/
def CommandWord.len (cw : CommandWord) : Config.Length := cw.extractLsb' 12 16
/-- `POLY = CW[91:28]`, unsigned, used as it stands (R66). -/
def CommandWord.poly (cw : CommandWord) : Word := cw.extractLsb' 28 64
/-- `INIT = CW[155:92]` (R66). -/
def CommandWord.init (cw : CommandWord) : Word := cw.extractLsb' 92 64
/-- `XOROUT = CW[219:156]` (R66). -/
def CommandWord.xorout (cw : CommandWord) : Word := cw.extractLsb' 156 64

/-- The opcode map (R63) with each command's own fields; every other field is ignored (R64). -/
def decode (cw : CommandWord) : Instr :=
  if cw.op = 0b00#2 then .config cw.width cw.poly cw.init cw.refin cw.refout cw.xorout
  else if cw.op = 0b01#2 then .reset
  else if cw.op = 0b10#2 then .process cw.len
  else .checksum

/-! ### Encoding -/

/-- A command word from its fields, at the positions of R62. -/
def packFields (op : BitVec 2) (refin refout : Bool) (width : BitVec 8) (len : Config.Length)
    (poly init xorout : Word) : CommandWord :=
  xorout ++ init ++ poly ++ len ++ width ++ BitVec.ofBool refout ++ BitVec.ofBool refin ++ op

/-- The canonical word of a command: its own fields at their places, every unused field zero (R64, R78). -/
def encode : Instr → CommandWord
  | .config width poly init refin refout xorout => packFields 0b00#2 refin refout width 0 poly init xorout
  | .reset => packFields 0b01#2 false false 0 0 0 0 0
  | .process len => packFields 0b10#2 false false 0 len 0 0 0
  | .checksum => packFields 0b11#2 false false 0 0 0 0 0

/-- A word is canonical when the fields its command does not use are zero (R64, column "used by" of R62). Claims are
best stated over canonical words (U16, D4). -/
def CommandWord.canonical (cw : CommandWord) : Bool :=
  if cw.op = 0b00#2 then cw.len == 0
  else if cw.op = 0b10#2 then
    !cw.refin && !cw.refout && cw.width == 0 && cw.poly == 0 && cw.init == 0 && cw.xorout == 0
  else
    !cw.refin && !cw.refout && cw.width == 0 && cw.len == 0 && cw.poly == 0 && cw.init == 0 && cw.xorout == 0

/-! ### Command words written out as bytes (DESIGN CHOICE, log entry 10) -/

/-- Why a list of bytes carries no command word. -/
inductive DecodeError where
  /-- not the 28 bytes of one command word -/
  | wrongLength
  /-- a bit above `CW[219]` is set, where the command channel has no wire -/
  | padBitsSet
deriving DecidableEq, Repr

/-- `count` bytes of a number, the least significant byte first. -/
def bytesOfNat : Nat → Nat → List Byte
  | 0, _ => []
  | count + 1, n => BitVec.ofNat 8 n :: bytesOfNat count (n / 256)

/-- The number whose bytes these are, the least significant byte first. -/
def natOfBytes : List Byte → Nat
  | [] => 0
  | b :: bs => b.toNat + 256 * natOfBytes bs

/-- The command in a list of bytes, or the name of the reason there is none. -/
def decodeBytes (bytes : List Byte) : Except DecodeError Instr :=
  if bytes.length ≠ Config.cwBytes then .error .wrongLength
  else if 2 ^ Config.cwBits ≤ natOfBytes bytes then .error .padBitsSet
  else .ok (decode (BitVec.ofNat 220 (natOfBytes bytes)))

/-- The bytes of a command's canonical word. -/
def encodeBytes (i : Instr) : List Byte := bytesOfNat Config.cwBytes (encode i).toNat

/-- The command that an opcode-table word stands for: `w` numbered as the table numbers it, every bit above `nbits`
zero, laid out as 28 bytes and decoded. -/
def decodeTableWord (nbits w : Nat) : Option Instr :=
  match decodeBytes (bytesOfNat Config.cwBytes (w % 2 ^ nbits)) with
  | .ok i => some i
  | .error _ => none

end Sys2Proof
end

