-- ==== Sys2Proof/Machine/State.lean ====
section
/-! DEFINITION. The architectural state of one CRCACC block (10_state.md R20 to R39), the host's side of its three
channels (R36, 30_encoding.md R60), and the reasons a step can stop. -/

namespace Sys2Proof.Machine

/-- The six configuration registers (R25 to R30), written as a group by a successful CONFIG only (R32). -/
structure Cfg where
  /-- `CFG.WIDTH`, 7 bits (R25). -/
  width : BitVec 7
  /-- `CFG.POLY`: bit i is the coefficient of x^i (R26). -/
  poly : Word
  /-- `CFG.INIT`: the seed, loaded into `REG` unreversed (R27). -/
  init : Word
  /-- `CFG.REFIN`: the reflected convention (R28). -/
  refin : Bool
  /-- `CFG.REFOUT`: reverse `REG` before output (R29). -/
  refout : Bool
  /-- `CFG.XOROUT`: XORed into the result before output (R30). -/
  xorout : Word
deriving DecidableEq, Repr

/-- `W`, "always the current value of `CFG.WIDTH`" (10_state.md). -/
abbrev Cfg.w (c : Cfg) : Nat := c.width.toNat

/-- The table index space, the one memory of the block: entry i stands at place i (R33, R40). A dense list, since all
256 entries are always present; two tables are equal exactly when they are equal lists (log entry 6). -/
abbrev Memory := List Word

/-- The canonical form of the memory: exactly 256 entries (R33, R40). -/
abbrev Memory.wf (m : Memory) : Prop := m.length = Config.tableEntries

/-- The source's CrcAccumulator: parameters, register and lookup table (R20). It exists while `VALID = 1`. -/
structure Accumulator where
  cfg : Cfg
  /-- `REG`, the one data register (R21). -/
  reg : Word
  /-- `TABLE[0..255]` (R33). -/
  table : Memory
deriving DecidableEq, Repr

/-- `STATUS` of a response (R69). -/
inductive Status where
  /-- `OK`: the command was carried out. -/
  | ok
  /-- `InvalidParameter`: CONFIG rejected its `WIDTH` (R151). -/
  | invalidParameter
  /-- `InvalidInput`: PROCESS met an element with `NB = 1` (R152). -/
  | invalidInput
  /-- `Refused`: RESET, PROCESS or CHECKSUM arrived while `VALID = 0` (R153). -/
  | refused
deriving DecidableEq, Repr

/-- The one response of a command (R69, R70). -/
structure Response where
  status : Status
  value : Word
deriving DecidableEq, Repr

/-- What the host does next at the command port and at `rst`, in the order the block sees it (R61, R180, R181). -/
inductive HostInput where
  /-- It presents this command word. -/
  | command (cw : CommandWord)
  /-- It asserts `rst` while the block holds no command (R180). -/
  | rst
  /-- It presents this command word, and asserts `rst` after its acceptance and before its response was transferred,
  when `taken` payload elements had been transferred (R181; log entry 7). -/
  | rstDuring (cw : CommandWord) (taken : Nat)
deriving DecidableEq, Repr

/-- The state a step reads and writes: the block's own state and, because a step takes its commands and elements from the
host and answers it, the host's side of the three channels. -/
structure State where
  /-- `VALID`, `CFG`, `REG` and `TABLE`: `none` is `VALID = 0`, "no accumulator" (R20, R24, R37; log entry 1). -/
  acc : Option Accumulator
  /-- MODEL'S OWN: what the host has yet to do at the command port and at `rst`, first first (R36; log entry 2). -/
  cmdIn : List HostInput
  /-- MODEL'S OWN: the elements the host offers on the data channel, first first (R36, R68; log entry 2). -/
  datIn : List Element
  /-- MODEL'S OWN: the responses handed to the host, oldest first (R36, R49; log entry 2). -/
  rspOut : List Response
deriving DecidableEq, Repr

/-- `VALID` (R24). -/
def State.valid (s : State) : Bool := s.acc.isSome

/-- Reasons the machine stops. -/
inductive Fault where
  /-- Raised by PROCESS alone: it was accepted and not refused, and the host offers fewer than `LEN` elements, so the block
  waits for ever and "a command-level model has no move" (R185 (b), U14; log entry 4). Safe: the model stops where the
  block hangs. -/
  | payloadNotDelivered
deriving DecidableEq, Repr

/-- Reasons the model gives a command no meaning. -/
inductive Refusal where
  /-- Raised by a dispatch arm whose command has no meaning yet; no arm of this model raises it. Safe. -/
  | notModelled (mnemonic : String)
deriving DecidableEq, Repr

/-- The state after hardware reset (R37, R180): `VALID = 0` and no accumulator; the host has presented nothing and has
been answered nothing (log entries 1 and 2). -/
def State.reset : State where
  acc := none
  cmdIn := []
  datIn := []
  rspOut := []

end Sys2Proof.Machine
end

