-- ==== Sys2Proof/Machine/Operands.lean ====
section
/-! DEFINITION. Operand forms and the arithmetic of the pseudocode: masks, bit reversal, the width check, payload
elements and response words (00_scope.md R9 to R12, 30_encoding.md R65 to R70). -/

namespace Sys2Proof.Machine

/-- `mask(n) = 2^n − 1` (R10). -/
def mask (n : Nat) : Word := BitVec.ofNat 64 (2 ^ n - 1)

/-- The low `count` bits of `rev n v`: bit i is bit n−1−i of v (R11). -/
def revBits (n : Nat) (v : Word) : Nat → Word
  | 0 => 0
  | count + 1 =>
    if v.getLsbD (n - 1 - count) then revBits n v count ||| (1#64 <<< count) else revBits n v count

/-- `rev_n(v)`, the bit reversal of an n-bit value (R11). -/
def rev (n : Nat) (v : Word) : Word := revBits n v n

/-- `PREFL = rev_W(CFG.POLY)`, a function of the configuration, not a register (R93). -/
def prefl (c : Cfg) : Word := rev c.w c.poly

/-- CONFIG's check of its `WIDTH` operand: legal values are 1..64 (R65, R91). -/
def widthLegal (width : BitVec 8) : Bool := decide (1 ≤ width.toNat) && decide (width.toNat ≤ Config.wmax)

/-- `E[7:0]`, the byte of an element (R68). -/
def elementByte (e : Element) : Byte := e.extractLsb' 0 8

/-- `NB = E[8]`: the position holds no byte (R68). -/
def elementNB (e : Element) : Bool := e.getLsbD 8

/-- A byte as the host sends it, with `NB = 0` (R68, R77). -/
def byteElement (b : Byte) : Element := b.setWidth 9

/-- The marker of a position that is not a byte, `NB = 1` (R68, R73). -/
def nbElement : Element := 0x100#9

/-- The `STATUS` code (R69). -/
def Status.code : Status → BitVec 2
  | .ok => 0b00#2
  | .invalidParameter => 0b01#2
  | .invalidInput => 0b10#2
  | .refused => 0b11#2

/-- The status of a `STATUS` code; all four codes are assigned (R69, R154). -/
def Status.ofCode (c : BitVec 2) : Status :=
  if c = 0b00#2 then .ok
  else if c = 0b01#2 then .invalidParameter
  else if c = 0b10#2 then .invalidInput
  else .refused

/-- The response word: `RW[1:0] = STATUS`, `RW[65:2] = VALUE` (R69). -/
def Response.word (r : Response) : ResponseWord := r.value ++ r.status.code

/-- The response a response word carries (R69). -/
def Response.ofWord (rw : ResponseWord) : Response where
  status := Status.ofCode (rw.extractLsb' 0 2)
  value := rw.extractLsb' 2 64

end Sys2Proof.Machine
end

