-- ==== Sys2Proof/Machine/Flags.lean ====
section
/-! DEFINITION. CRCACC has no status flags and no condition codes (10_state.md R24): no flag computation exists. "The only
status-like bit is `VALID`", and this file holds the one thing a command does with it: the check that comes before
every other check of RESET, PROCESS and CHECKSUM (60_exceptions.md R153, R156). -/

namespace Sys2Proof.Machine

/-- What a command leaves and answers: the accumulator after it (`none` is `VALID = 0`) and its one response (R8, R69). -/
abbrev Result := Option Accumulator × Response

/-- `raise st`: the command ends at once, writes no state, and its response carries the status and the value 0. This is
the block's whole "exception entry": nothing is saved and control goes nowhere (R12, R150, R157, R158). There is no
return from it, since nothing was entered (R159). -/
def raise (st : Status) (acc : Option Accumulator) : Result := (acc, ⟨st, 0⟩)

/-- `respond(OK, value)` with the accumulator the command leaves (R12, R70). -/
def respond (value : Word) (acc : Option Accumulator) : Result := (acc, ⟨.ok, value⟩)

/-- `if VALID = 0 then raise Refused`, else go on with the accumulator (R153, R156). -/
def requireValid (acc : Option Accumulator) (body : Accumulator → Result) : Result :=
  match acc with
  | none => raise .refused none
  | some a => body a

end Sys2Proof.Machine
end

