-- ==== Sys2Proof/Machine/Ops.lean ====
section
/-! DEFINITION. The named operations over memory, registers and channels that every command shares (20_memory.md R42,
30_encoding.md R61, 60_exceptions.md R150 to R158, 70_reset_and_hazards.md R180, R181). -/

namespace Sys2Proof.Machine

/-! ### The table index space (R40, R42) -/

/-- `MemRead(i, W)`: entry i. It always succeeds: a byte index is in range of the 256 entries (R42; the default of a list
that is too short is never read while the memory is well formed, log entry 6). -/
def memRead (m : Memory) (i : Byte) : Word := m.getD i.toNat 0

/-- `MemWrite(i, W, v)`: stores `v AND mask(W)` into entry i; only CONFIG performs it (R42). -/
def memWrite (m : Memory) (i : Byte) (w : Nat) (v : Word) : Memory := m.set i.toNat (v &&& mask w)

/-! ### Ending a command (R61 steps 3 and 4) -/

/-- A command with this result completes: its state writes happen, and its one response is handed to the host (R61, R69). -/
def complete (r : Result) (s : State) : Host.Outcome State Fault Refusal :=
  .next { s with acc := r.1, rspOut := s.rspOut ++ [r.2] }

/-! ### The data channel (R61 step 2, R67) -/

/-- How many elements the block takes from the data channel for a command: `LEN` for a PROCESS that is not refused, none
for every other command and for a refused PROCESS (R61, R153). -/
def elementsTaken (acc : Option Accumulator) (i : Instr) : Nat :=
  match acc with
  | none => 0
  | some _ => i.payloadLength

/-- The first `count` elements offered, and the rest; `none` when the host offers fewer (R185 (b)). -/
def takePayload : Nat → List Element → Option (List Element × List Element)
  | 0, offered => some ([], offered)
  | _ + 1, [] => none
  | count + 1, e :: offered =>
    match takePayload count offered with
    | none => none
    | some (payload, rest) => some (e :: payload, rest)

/-! ### Hardware reset (R180, R181) -/

/-- `rst` between commands: `VALID = 0`, everything else of the block gone (R37, R180). The host's side is the host's. -/
def hardReset (s : State) : State := { s with acc := none }

/-- `rst` in mid-command: no response, the elements already transferred are lost, and the block is in the reset state
whatever the command had done (R181). No more elements can have been transferred than the command takes (R61). -/
def abandonCommand (i : Instr) (taken : Nat) (s : State) : State :=
  { s with acc := none, datIn := s.datIn.drop (min taken (elementsTaken s.acc i)) }

end Sys2Proof.Machine
end

