-- ==== Sys2Proof/Machine/Datapath.lean ====
section
/-! DEFINITION. The bit-serial reference (40_config.md R93 to R96), the lookup table (R97), the byte-folding datapath
(42_process.md R118 to R124) and the output stage (43_checksum.md R141). -/

namespace Sys2Proof.Machine

/-! ### The bit-serial reference -/

/-- One bit, non-reflected convention: shift left, XOR the polynomial in when the leaving bit differs from the data
bit (R94). -/
def stepMSB (c : Cfg) (r : Word) (d : Bool) : Word :=
  let shifted := (r <<< 1) &&& mask c.w
  if (r.getLsbD (c.w - 1) ^^ d) = true then shifted ^^^ c.poly else shifted

/-- One bit, reflected convention: shift right, XOR the reflected polynomial in when the leaving bit differs from the
data bit (R95). -/
def stepLSB (c : Cfg) (r : Word) (d : Bool) : Word :=
  let shifted := r >>> 1
  if (r.getLsbD 0 ^^ d) = true then shifted ^^^ prefl c else shifted

/-- The bits of a byte in the order in which they are consumed: bit 7 first when `CFG.REFIN = 0`, bit 0 first when
`CFG.REFIN = 1` (R43, R96). -/
def bitOrder (refin : Bool) : List Nat := if refin then [0, 1, 2, 3, 4, 5, 6, 7] else [7, 6, 5, 4, 3, 2, 1, 0]

/-- One bit by the configured convention (R94, R95). -/
def stepBit (c : Cfg) (r : Word) (d : Bool) : Word := if c.refin then stepLSB c r d else stepMSB c r d

/-- `FoldBits(R, b)`, the normative definition of folding one byte (R96). -/
def foldBits (c : Cfg) (r : Word) (b : Byte) : Word :=
  (bitOrder c.refin).foldl (fun r k => stepBit c r (b.getLsbD k)) r

/-! ### The table -/

/-- The table CONFIG leaves: `TABLE[i] = FoldBits(0, i)` for i = 0..255 (R97), each entry stored through the mask of
`MemWrite` (R42). -/
def buildTable (c : Cfg) : Memory :=
  (List.range Config.tableEntries).map fun i => foldBits c 0 (BitVec.ofNat 8 i) &&& mask c.w

/-! ### The byte-folding datapath -/

/-- The table index of one fold: the low byte of `R` (reflected, R118), its top byte (R119), or `R` in the top W bits of
the index (W < 8, R120), XORed with the input byte. -/
def tableIndex (c : Cfg) (r : Word) (b : Byte) : Byte :=
  if c.refin then ((r ^^^ b.setWidth 64) &&& 0xFF#64).setWidth 8
  else
    let top := if 8 ≤ c.w then r >>> (c.w - 8) else (r <<< (8 - c.w)) &&& 0xFF#64
    ((top ^^^ b.setWidth 64) &&& 0xFF#64).setWidth 8

/-- `FoldTable(R, b)`: one table read, one 8-bit shift and XORs (R121). -/
def foldTable (c : Cfg) (table : Memory) (r : Word) (b : Byte) : Word :=
  if c.refin then memRead table (tableIndex c r b) ^^^ (r >>> 8)
  else ((r <<< 8) &&& mask c.w) ^^^ memRead table (tableIndex c r b)

/-- `Fold*(R, B)`: a byte sequence folded left to right, the first byte first (R124, R125). -/
def foldBytes (c : Cfg) (table : Memory) (r : Word) (bytes : List Byte) : Word :=
  bytes.foldl (foldTable c table) r

/-! ### The output stage -/

/-- `Out(R)`: the reflection first, the XOR second, masked to W bits (R141). -/
def outFn (c : Cfg) (r : Word) : Word := ((if c.refout then rev c.w r else r) ^^^ c.xorout) &&& mask c.w

end Sys2Proof.Machine
end

