-- ==== Sys2Proof/Machine/Checksum.lean ====
section
/-! DEFINITION. CHECKSUM, the source's `checksum()` (43_checksum.md R140 to R146). -/

namespace Sys2Proof.Machine

/-- CHECKSUM on the block: answers `Out(REG)`, writes nothing (R140, R142). -/
def checksum (acc : Option Accumulator) : Result :=
  requireValid acc fun a => respond (outFn a.cfg a.reg) (some a)

/-- The meaning of CHECKSUM (R140). -/
def execChecksum (s : State) : Host.Outcome State Fault Refusal :=
  complete (checksum s.acc) s

end Sys2Proof.Machine
end

