-- ==== Sys2Proof/Machine/Construct.lean ====
section
/-! DEFINITION. CONFIG, the source's `Construct` (40_config.md R90 to R102). -/

namespace Sys2Proof.Machine

/-- The six configuration registers a successful CONFIG writes, the numeric ones masked to `WIDTH` bits (R90, R92). -/
def maskedCfg (width : BitVec 8) (poly init : Word) (refin refout : Bool) (xorout : Word) : Cfg where
  width := width.setWidth 7
  poly := poly &&& mask width.toNat
  init := init &&& mask width.toNat
  refin := refin
  refout := refout
  xorout := xorout &&& mask width.toNat

/-- The accumulator in its seeded state: the table of its parameters, and `REG = CFG.INIT`, unreversed (R38, R97, R99). -/
def seeded (c : Cfg) : Accumulator where
  cfg := c
  reg := c.init
  table := buildTable c

/-- CONFIG on the block: the width check before any write (R91, R100), then a new accumulator in place of whatever was
there (R101). No other operand can make it fail (R102). -/
def config (width : BitVec 8) (poly init : Word) (refin refout : Bool) (xorout : Word)
    (acc : Option Accumulator) : Result :=
  if widthLegal width then respond 0 (some (seeded (maskedCfg width poly init refin refout xorout)))
  else raise .invalidParameter acc

/-- The meaning of CONFIG (R90). -/
def execConfig (width : BitVec 8) (poly init : Word) (refin refout : Bool) (xorout : Word)
    (s : State) : Host.Outcome State Fault Refusal :=
  complete (config width poly init refin refout xorout s.acc) s

end Sys2Proof.Machine
end

