-- ==== Sys2Proof/Machine/Process.lean ====
section
/-! DEFINITION. PROCESS, the source's `process(bytes)` (42_process.md R115 to R128). -/

namespace Sys2Proof.Machine

/-- PROCESS on the block: the whole payload is examined before `REG` is written (R116), then its bytes are folded in
payload order (R115, R125). -/
def process (payload : List Element) (acc : Option Accumulator) : Result :=
  requireValid acc fun a =>
    if payload.any elementNB then raise .invalidInput (some a)
    else respond 0 (some { a with reg := foldBytes a.cfg a.table a.reg (payload.map elementByte) })

/-- The meaning of PROCESS (R115): it takes exactly `LEN` elements, or none when it is refused (R61, R153); all of them are
consumed even when the payload fails (R116). Where the host offers fewer it has no move (R185 (b), log entry 4). -/
def execProcess (len : Config.Length) (s : State) : Host.Outcome State Fault Refusal :=
  match takePayload (elementsTaken s.acc (.process len)) s.datIn with
  | none => .fault .payloadNotDelivered
  | some (payload, rest) => complete (process payload s.acc) { s with datIn := rest }

end Sys2Proof.Machine
end

