-- ==== Sys2Proof/Machine/Reseed.lean ====
section
/-! DEFINITION. RESET, the source's `reset()` (41_reset.md R110 to R112); not the hardware reset input. -/

namespace Sys2Proof.Machine

/-- RESET on the block: `REG <- CFG.INIT`, nothing else written (R110). -/
def reseed (acc : Option Accumulator) : Result :=
  requireValid acc fun a => respond 0 (some { a with reg := a.cfg.init })

/-- The meaning of RESET (R110). -/
def execReset (s : State) : Host.Outcome State Fault Refusal :=
  complete (reseed s.acc) s

end Sys2Proof.Machine
end

