-- ==== Sys2Proof/Machine/Dispatch.lean ====
section
/-! DEFINITION. One arm per command of the opcode table (30_encoding.md R63). -/

namespace Sys2Proof.Machine

def exec (i : Instr) (s : State) : Host.Outcome State Fault Refusal :=
  match i with
  | .config width poly init refin refout xorout => Sys2Proof.Machine.execConfig width poly init refin refout xorout s
  | .reset => Sys2Proof.Machine.execReset s
  | .process len => Sys2Proof.Machine.execProcess len s
  | .checksum => Sys2Proof.Machine.execChecksum s

end Sys2Proof.Machine
end

