-- ==== Sys2Proof/Machine/Step.lean ====
section
/-! DEFINITION. One architectural step: the block takes what the host does next and carries it out whole (00_scope.md R8,
20_memory.md R49, 30_encoding.md R61). -/

namespace Sys2Proof.Machine

/-- One step. A command word is decoded and executed; `rst` resets the block (R180), also in mid-command (R181); while the
host does nothing the block is idle and holds its state (R167, log entry 13). -/
def step (s : State) : Host.Outcome State Fault Refusal :=
  match s.cmdIn with
  | [] => .next s
  | .command cw :: later => exec (decode cw) { s with cmdIn := later }
  | .rst :: later => .next (hardReset { s with cmdIn := later })
  | .rstDuring cw taken :: later => .next (abandonCommand (decode cw) taken { s with cmdIn := later })

/-- `s` with a command presented so that the very next step runs it: the command word whose low `nbits` bits are those of
`w`, the rest zero, at the head of the command port, and, for a PROCESS, its `LEN` payload elements, all zero, at the
head of the data channel (log entry 2). -/
def State.withFetchWord (s : State) (nbits w : Nat) : State :=
  let cw := BitVec.ofNat 220 (w % 2 ^ nbits)
  { s with
    cmdIn := .command cw :: s.cmdIn
    datIn := List.replicate (decode cw).payloadLength 0#9 ++ s.datIn }

end Sys2Proof.Machine
end

