-- ==== Sys2Proof/Machine/Assembler.lean ====
section
/-! DEFINITION. The spec's assembler notation (30_encoding.md R73 to R76), and how a host maps the source's API onto
commands (R77). It is host-side notation: nothing of it is in the block. -/

namespace Sys2Proof.Machine

/-- The element an `<elem>` stands for (R73). An integer above 0xFF, which `LineElement.wf` refuses, is taken modulo 2^8
(DESIGN CHOICE, log entry 14: the spec says nothing of it). -/
def lineElement : LineElement → Element
  | .byte value => byteElement (BitVec.ofNat 8 value)
  | .nb => nbElement

/-- The UTF-8 bytes of a text operand, as elements (R76). -/
def textElements (chars : String) : List Element :=
  (chars.toList.flatMap String.utf8EncodeChar).map fun u => byteElement (BitVec.ofNat 8 u.toNat)

/-- A PROCESS line's elements cut into pieces of at most 65535, in order (R67, R75 (b)); an empty line is one empty
piece (R73). Every piece but the last is filled to 65535 (DESIGN CHOICE, log entry 15: the spec says only "at most").
The first argument bounds the number of cuts. -/
def splitPayload : Nat → List Element → List (List Element)
  | 0, elements => [elements]
  | cuts + 1, elements =>
    if elements.length ≤ Config.maxPayload then [elements]
    else elements.take Config.maxPayload :: splitPayload cuts (elements.drop Config.maxPayload)

/-- The PROCESS commands of a line: `LEN` is the number of elements of each (R73, R75 (b)). -/
def assembleProcess (elements : List Element) : List Transaction :=
  (splitPayload elements.length elements).map fun piece => ⟨.process (BitVec.ofNat 16 piece.length), piece⟩

/-- The commands one line stands for; an omitted option has its default in the line already (R73, R74). An integer that
does not fit its field, which `Line.wf` refuses, is taken modulo 2^8 (width) or 2^64 (DESIGN CHOICE, log entry 14: the
spec says nothing of it). -/
def assembleLine : Line → List Transaction
  | .config c =>
    [⟨.config (BitVec.ofNat 8 c.width) (BitVec.ofNat 64 c.poly) (BitVec.ofNat 64 c.init) c.refin c.refout
        (BitVec.ofNat 64 c.xorout), []⟩]
  | .reset => [⟨.reset, []⟩]
  | .process elements => assembleProcess (elements.map lineElement)
  | .text chars => assembleProcess (textElements chars)
  | .checksum => [⟨.checksum, []⟩]

/-- A program: its lines one after another. Chaining is nothing but this order (R75 (a)). -/
def assemble (lines : List Line) : List Transaction := lines.flatMap assembleLine

/-- The host issues these commands after everything it has already presented: canonical words on the command channel,
payloads on the data channel, in order (R49, R61, R78). -/
def State.present (s : State) (ts : List Transaction) : State :=
  { s with
    cmdIn := s.cmdIn ++ ts.map fun t => .command (encode t.instr)
    datIn := s.datIn ++ ts.flatMap fun t => t.payload }

/-- What the host surfaces to its caller: the value of an `OK` response, or the error of the status's name (R77). -/
def Response.surface (r : Response) : Except Status Word :=
  match r.status with
  | .ok => .ok r.value
  | .invalidParameter => .error .invalidParameter
  | .invalidInput => .error .invalidInput
  | .refused => .error .refused

end Sys2Proof.Machine
end

