-- ==== Sys2Proof/Machine/Catalogue.lean ====
section
/-! DEFINITION. Outside views of a CRC that the spec relates the block to, both general knowledge in the spec's own words:
the catalogue ("Rocksoft") convention of 43_checksum.md R145, and the remainder of polynomial division of 42_process.md
R127 (log entry 12). No command reads anything of this file. -/

namespace Sys2Proof.Machine

/-! ### The catalogue convention (R145, G5) -/

/-- A catalogue entry `(width, poly, init, refin, refout, xorout)`: init is given for the left-shifting register, and
refout says whether that register is reversed at the end (R145). -/
structure Variant where
  width : Nat
  poly : Word
  init : Word
  refin : Bool
  refout : Bool
  xorout : Word
deriving DecidableEq, Repr

/-- One data bit into the left-shifting register. -/
def Variant.bit (v : Variant) (r : Word) (d : Bool) : Word :=
  let shifted := (r <<< 1) &&& mask v.width
  if r.getLsbD (v.width - 1) = d then shifted else shifted ^^^ (v.poly &&& mask v.width)

/-- One byte, its bits taken from the lowest up when refin is true. -/
def Variant.byte (v : Variant) (r : Word) (b : Byte) : Word :=
  if v.refin then (List.range 8).foldl (fun r k => v.bit r (b.getLsbD k)) r
  else (List.range 8).foldl (fun r k => v.bit r (b.getLsbD (7 - k))) r

/-- The catalogue's checksum of a message. -/
def Variant.crc (v : Variant) (message : List Byte) : Word :=
  let r := message.foldl v.byte (v.init &&& mask v.width)
  ((if v.refout then rev v.width r else r) ^^^ v.xorout) &&& mask v.width

/-- The CONFIG that makes the block compute a catalogue entry's checksum (the table of R145). -/
def Variant.configure (v : Variant) : Instr :=
  if v.refin then .config (BitVec.ofNat 8 v.width) v.poly (rev v.width v.init) true (!v.refout) v.xorout
  else .config (BitVec.ofNat 8 v.width) v.poly v.init false v.refout v.xorout

/-! ### Division over GF(2) (R127, G3, G4). A polynomial is the number whose bit i is the coefficient of x^i. -/

/-- `G(x) = x^W + Σ CFG.POLY[i]·x^i` (R26, R127). -/
def generator (c : Cfg) : Nat := 2 ^ c.w + c.poly.toNat

/-- The product of a quotient, its coefficients listed from the highest power down, and a polynomial, over GF(2). -/
def quotientTimes (quotient : List Bool) (g : Nat) : Nat :=
  quotient.foldl (fun acc q => (2 * acc) ^^^ (if q then g else 0)) 0

/-- The bits of a message in the order the block consumes them (R43). -/
def messageBits (refin : Bool) (message : List Byte) : List Bool :=
  message.flatMap fun b => (bitOrder refin).map fun k => b.getLsbD k

/-- `M(x)`: "the first bit the highest power" (R127). -/
def messagePoly (bits : List Bool) : Nat := bits.foldl (fun acc d => 2 * acc + d.toNat) 0

/-- `r` is the remainder of `dividend` divided by `g`, of degree `w`, over GF(2). -/
def isRemainder (dividend g w r : Nat) : Prop :=
  r < 2 ^ w ∧ ∃ quotient : List Bool, dividend = quotientTimes quotient g ^^^ r

end Sys2Proof.Machine
end

