-- ==== Sys2Proof/Machine/Wire.lean ====
section
/-! DEFINITION. The block at its ports, edge by edge: the handshake of 30_encoding.md R60, R61 with the reset of
70_reset_and_hazards.md R180, R181 and the waiting of R185. It adds no architectural state (00_scope.md R8): it executes a
held command by `exec`, whole, and a refinement statement ties it to the command-level machine. How many edges a command
takes is left open by the spec (R187): `finish` is an argument of each edge (log entry 8). -/

namespace Sys2Proof.Machine

/-- Where the block is in the cycle of R61. "The block holds at most one command at a time." -/
inductive Phase where
  /-- It holds no command and waits for one (R61 step 1, R167). -/
  | idle
  /-- It holds a PROCESS and has taken these elements, fewer than `LEN` (R61 step 2). -/
  | collecting (cw : CommandWord) (got : List Element)
  /-- It holds a command with its whole payload and executes it, for at least one edge (R61 step 3; log entry 8). -/
  | executing (cw : CommandWord) (payload : List Element)
  /-- It holds the response of the command it executed (R61 step 4). -/
  | responding (cw : CommandWord) (payload : List Element) (response : Response)
deriving DecidableEq, Repr

/-- The block at its ports: the architectural state and the phase of the handshake. -/
structure Wire where
  acc : Option Accumulator
  phase : Phase
deriving DecidableEq, Repr

/-- What the block samples at one rising edge of `clk` (R60), and whether an executing command ends at it (R187). -/
structure EdgeIn where
  rst : Bool
  cmdValid : Bool
  cmd : CommandWord
  datValid : Bool
  datElem : Element
  rspReady : Bool
  /-- MODEL'S OWN: the command being executed ends at this edge (log entry 8). -/
  finish : Bool
deriving DecidableEq, Repr

/-- An edge at which the host does nothing and an executing command does not end. -/
def EdgeIn.quiet : EdgeIn := ⟨false, false, 0, false, 0, false, false⟩

/-- The edges over which one command is carried from acceptance to answer, with as many edges before each transfer, and
as many before the command ends, as the host and the block take (R61, R187; log entry 8). What the edges carry beside
that is open. -/
structure Schedule where
  /-- before the command word is presented -/
  idle : List EdgeIn
  /-- the acceptance of the command -/
  accept : EdgeIn
  /-- each payload element's transfer, with the edges before it -/
  elements : List (List EdgeIn × EdgeIn)
  /-- while the command executes -/
  executing : List EdgeIn
  /-- the command ends, at an edge of its own -/
  finish : EdgeIn
  /-- while the response waits -/
  waiting : List EdgeIn
  /-- the transfer of the response -/
  take : EdgeIn
deriving DecidableEq, Repr

/-- The payload the host delivers. -/
def Schedule.payload (p : Schedule) : List Element := p.elements.map fun e => e.2.datElem

/-- All its edges, in order. -/
def Schedule.edges (p : Schedule) : List EdgeIn :=
  p.idle ++ [p.accept] ++ p.elements.flatMap (fun e => e.1 ++ [e.2]) ++ p.executing ++ [p.finish] ++ p.waiting ++ [p.take]

/-- The transfers happen where the names say and nowhere before: `rst` stays 0, the host presents the word, then each
element, and takes the response (R185), and the command ends (R187). -/
structure Schedule.Proper (p : Schedule) : Prop where
  idle : ∀ e ∈ p.idle, e.rst = false ∧ e.cmdValid = false
  accept : p.accept.rst = false ∧ p.accept.cmdValid = true
  elements : ∀ e ∈ p.elements, (∀ q ∈ e.1, q.rst = false ∧ q.datValid = false) ∧ e.2.rst = false ∧ e.2.datValid = true
  executing : ∀ e ∈ p.executing, e.rst = false ∧ e.finish = false
  finish : p.finish.rst = false ∧ p.finish.finish = true
  waiting : ∀ e ∈ p.waiting, e.rst = false ∧ e.rspReady = false
  take : p.take.rst = false ∧ p.take.rspReady = true

/-- What the block drives (R60). `rsp` is `none` while `rspValid` is 0: no response word is presented then. -/
structure PortsOut where
  cmdReady : Bool
  datReady : Bool
  rspValid : Bool
  rsp : Option ResponseWord
deriving DecidableEq, Repr

/-- The state after hardware reset: no accumulator, no command held (R37, R180). -/
def Wire.reset : Wire := ⟨none, .idle⟩

/-- The outputs. While `rst = 1` nothing is ready and no response is presented (R180). -/
def Wire.ports (rst : Bool) (w : Wire) : PortsOut :=
  if rst then ⟨false, false, false, none⟩
  else
    match w.phase with
    | .idle => ⟨true, false, false, none⟩
    | .collecting _ _ => ⟨false, true, false, none⟩
    | .executing _ _ => ⟨false, false, false, none⟩
    | .responding _ _ response => ⟨false, false, true, some response.word⟩

/-- The phase of a block that holds this command and these elements: it raises `dat_ready` until exactly `LEN` elements
have been transferred, and for every other command, and for a refused PROCESS, takes none (R61 step 2). -/
def holding (acc : Option Accumulator) (cw : CommandWord) (got : List Element) : Phase :=
  if got.length < elementsTaken acc (decode cw) then .collecting cw got else .executing cw got

/-- The held command executes: one architectural step, with the payload it took (R61 step 3). -/
def Wire.execute (w : Wire) (cw : CommandWord) (payload : List Element) : Wire :=
  match exec (decode cw) ⟨w.acc, [], payload, []⟩ with
  | .next s =>
    match s.rspOut with
    | [response] => ⟨s.acc, .responding cw payload response⟩
    | _ => w
  | _ => w

/-- One rising edge of `clk`. A word is transferred where its valid and ready are both 1 and `rst` is 0 (R61). R61 leaves
open how many cycles a step takes; that a command executes for at least one edge after that of its acceptance or last
element, so that `rsp_valid` never rises at that edge itself, is the model's (DESIGN CHOICE, log entry 8). -/
def Wire.edge (w : Wire) (inp : EdgeIn) : Wire :=
  if inp.rst then Wire.reset
  else
    match w.phase with
    | .idle => if inp.cmdValid then { w with phase := holding w.acc inp.cmd [] } else w
    | .collecting cw got => if inp.datValid then { w with phase := holding w.acc cw (got ++ [inp.datElem]) } else w
    | .executing cw payload => if inp.finish then w.execute cw payload else w
    | .responding _ _ _ => if inp.rspReady then { w with phase := .idle } else w

/-! ### What was transferred, as the command level tells it -/

/-- A record of the transfers of a run: the commands answered and the resets, in order; the elements taken; the
responses handed over. -/
structure PortLog where
  inputs : List HostInput
  elements : List Element
  responses : List Response
deriving DecidableEq, Repr

/-- What an asserted `rst` is at the command level: between commands, or during one after so many elements (R180,
R181). -/
def resetInput : Phase → HostInput
  | .idle => .rst
  | .collecting cw got => .rstDuring cw got.length
  | .executing cw payload => .rstDuring cw payload.length
  | .responding cw payload _ => .rstDuring cw payload.length

/-- The record after one edge. A command is recorded when its response is transferred. -/
def PortLog.edge (log : PortLog) (inp : EdgeIn) (w : Wire) : PortLog :=
  if inp.rst then { log with inputs := log.inputs ++ [resetInput w.phase] }
  else
    match w.phase with
    | .idle => log
    | .collecting _ _ => if inp.datValid then { log with elements := log.elements ++ [inp.datElem] } else log
    | .executing _ _ => log
    | .responding cw _ response =>
      if inp.rspReady then
        { log with inputs := log.inputs ++ [.command cw], responses := log.responses ++ [response] }
      else log

/-- The record of a run that has transferred nothing. -/
def PortLog.empty : PortLog := ⟨[], [], []⟩

/-- A run of edges, with its record. -/
def Wire.run : List EdgeIn → Wire × PortLog → Wire × PortLog
  | [], wl => wl
  | inp :: later, (w, log) => Wire.run later (w.edge inp, log.edge inp w)

end Sys2Proof.Machine
end

