-- ==== Sys2Proof/Safety.lean ====
section
/-! DEFINITION. The invariant of a configured block (10_state.md R21, R25, R31, R33, 40_config.md R97) and the host's
duty that the command level turns into a premise (70_reset_and_hazards.md R185). -/

namespace Sys2Proof.Machine

/-- A value that is below 2^n, "width-masked" (R10). -/
abbrev fits (n : Nat) (v : Word) : Prop := v.toNat < 2 ^ n

/-- Configuration registers as every successful CONFIG leaves them (R25, R31). -/
structure Cfg.Legal (c : Cfg) : Prop where
  /-- `1 ≤ CFG.WIDTH` (R25). -/
  width_pos : 1 ≤ c.w
  /-- `CFG.WIDTH ≤ 64` (R25). -/
  width_le : c.w ≤ Config.wmax
  /-- `CFG.POLY[63:W] = 0` (R31). -/
  poly_fits : fits c.w c.poly
  /-- `CFG.INIT[63:W] = 0` (R31). -/
  init_fits : fits c.w c.init
  /-- `CFG.XOROUT[63:W] = 0` (R31). -/
  xorout_fits : fits c.w c.xorout

/-- An accumulator as the block can hold it: legal parameters, `REG[63:W] = 0` (R21), and the table of those
parameters (R33, R34, U4). -/
structure Accumulator.Legal (a : Accumulator) : Prop where
  cfg_legal : a.cfg.Legal
  reg_fits : fits a.cfg.w a.reg
  table_built : a.table = buildTable a.cfg

/-- The invariant of the machine: "whenever `VALID = 1`" the accumulator is as above (R21, R25, R31). -/
def State.Inv (s : State) : Prop := ∀ a, s.acc = some a → a.Legal

/-- The host offers every element the command will take (R185 (b)): what makes the block answer at all. -/
def State.delivers (s : State) (i : Instr) : Prop := elementsTaken s.acc i ≤ s.datIn.length

/-- `n` steps, stopping at the first fault or refusal. -/
def run : Nat → State → Host.Outcome State Fault Refusal
  | 0, s => .next s
  | n + 1, s =>
    match step s with
    | .next t => run n t
    | .fault f => .fault f
    | .refused r => .refused r

end Sys2Proof.Machine
end

