-- ==== Sys2Proof/Certificates/Slice0/Obligations.lean ====
section
/-! DEFINITION. The statements for the provers, in the order of the spec's files. -/

open Sys2Proof Sys2Proof.Machine

/-! ### 00_scope.md -/

/-- R11: bit i of `rev_n(v)` is bit n−1−i of v; the involution, the fixed values and the examples. -/
def Obligations.BitReversal : Prop :=
  (∀ (n : Nat) (v : Word), 1 ≤ n → n ≤ 64 → fits n v →
    fits n (rev n v) ∧ (∀ i, i < n → (rev n v).getLsbD i = v.getLsbD (n - 1 - i)) ∧
    rev n (rev n v) = v ∧ rev n 0 = 0 ∧ rev n (mask n) = mask n) ∧
  (∀ v : Word, fits 1 v → rev 1 v = v) ∧
  rev 16 0x8005#64 = 0xA001#64 ∧ rev 5 0x05#64 = 0x14#64 ∧ rev 8 0x31#64 = 0x8C#64

/-! ### 10_state.md -/

/-- The invariant holds at reset, where there is no accumulator (R37). -/
def Obligations.ResetMeetsTheInvariant : Prop :=
  State.reset.Inv ∧ State.reset.valid = false

/-- R21, R25, R31, R33: whenever `VALID = 1` the width is 1..64, `REG`, `CFG.POLY`, `CFG.INIT` and `CFG.XOROUT` are
below 2^W, and `TABLE` is the table of the parameters; every step keeps this. -/
def Obligations.EveryStepKeepsTheInvariant : Prop :=
  ∀ s t : State, s.Inv → step s = .next t → t.Inv

/-- R24: `VALID` becomes 1 by a successful CONFIG and by nothing else, and becomes 0 by hardware reset and by nothing
else. -/
def Obligations.ValidChangesOnlyByConfigAndHardwareReset : Prop :=
  ∀ s t : State, step s = .next t →
    (s.valid = false → t.valid = true →
      ∃ cw later, s.cmdIn = .command cw :: later ∧ cw.op = 0b00#2 ∧ 1 ≤ cw.width.toNat ∧ cw.width.toNat ≤ 64) ∧
    (s.valid = true → t.valid = false →
      ∃ later, s.cmdIn = .rst :: later ∨ ∃ cw taken, s.cmdIn = .rstDuring cw taken :: later) ∧
    (∀ cw later, s.cmdIn = .command cw :: later → cw.op = 0b00#2 → 1 ≤ cw.width.toNat → cw.width.toNat ≤ 64 →
      t.valid = true)

/-- R32: no command but a successful CONFIG writes a configuration register or a table entry, or brings any into being
where there is no accumulator; RESET, PROCESS, CHECKSUM and every command that ends in an error leave them all. -/
def Obligations.OnlyConfigWritesParametersAndTable : Prop :=
  ∀ (i : Instr) (s t : State), exec i s = .next t →
    (∃ width poly init refin refout xorout, i = .config width poly init refin refout xorout ∧
      1 ≤ width.toNat ∧ width.toNat ≤ 64) ∨
    (s.acc = none ∧ t.acc = none) ∨
    ∃ a b, s.acc = some a ∧ t.acc = some b ∧ b.cfg = a.cfg ∧ ∀ k, memRead b.table k = memRead a.table k

/-- R34: in the states the block can be in, the table is a function of width, polynomial and input reflection alone.
The spec marks R34 as its own inference ("[derived: ...]"). -/
def Obligations.TableDependsOnThreeParameters : Prop :=
  ∀ a b : Accumulator, a.Legal → b.Legal → a.cfg.width = b.cfg.width → a.cfg.poly = b.cfg.poly →
    a.cfg.refin = b.cfg.refin → a.table = b.table

/-- The frame of RESET, PROCESS and CHECKSUM: RESET and PROCESS may change `REG` and nothing else of the block, CHECKSUM
changes nothing of it; the commands to come are untouched; only an accepted PROCESS takes elements, exactly `LEN`. -/
def Obligations.FrameOfRegisterCommands : Prop :=
  ∀ (s t : State) (a : Accumulator), s.acc = some a →
    (exec .reset s = .next t → t.cmdIn = s.cmdIn ∧ t.datIn = s.datIn ∧
      ∃ b, t.acc = some b ∧ b.cfg = a.cfg ∧ ∀ k, memRead b.table k = memRead a.table k) ∧
    (∀ len, exec (.process len) s = .next t → t.cmdIn = s.cmdIn ∧ s.datIn = s.datIn.take len.toNat ++ t.datIn ∧
      (s.datIn.take len.toNat).length = len.toNat ∧
      ∃ b, t.acc = some b ∧ b.cfg = a.cfg ∧ ∀ k, memRead b.table k = memRead a.table k) ∧
    (exec .checksum s = .next t → t.cmdIn = s.cmdIn ∧ t.datIn = s.datIn ∧
      ∃ b, t.acc = some b ∧ b.cfg = a.cfg ∧ b.reg = a.reg ∧ ∀ k, memRead b.table k = memRead a.table k)

/-- R29, R30: `CFG.REFOUT` and `CFG.XOROUT` have no effect on the table, on RESET or on PROCESS: with other values of
the two, each does the same to everything else. -/
def Obligations.OutputParametersReachOnlyTheChecksum : Prop :=
  let out (refout : Bool) (xorout : Word) (a : Accumulator) : Accumulator :=
    { a with cfg := { a.cfg with refout := refout, xorout := xorout } }
  (∀ (a : Accumulator) (refout : Bool) (xorout : Word),
    buildTable (out refout xorout a).cfg = buildTable a.cfg) ∧
  (∀ (s t : State) (i : Instr) (refout : Bool) (xorout : Word), (i = .reset ∨ ∃ len, i = .process len) →
    exec i s = .next t →
    exec i { s with acc := s.acc.map (out refout xorout) } = .next { t with acc := t.acc.map (out refout xorout) })

/-! ### 20_memory.md, 30_encoding.md -/

/-- R42 (the table as a list is the model's form, log entry 6): an entry reads as the value last written to it, masked
to W bits, a write leaves the other entries and the number of entries alone, and in a legal accumulator every read is
below 2^W. CONFIG's loop of `MemWrite`s (R90), over any table of 256 entries, leaves the table CONFIG builds. -/
def Obligations.TableReadsAndWrites : Prop :=
  (∀ (m : Memory) (i j : Byte) (n : Nat) (v : Word), m.wf →
    (memWrite m i n v).wf ∧ memRead (memWrite m i n v) i = v &&& mask n ∧
    (j ≠ i → memRead (memWrite m i n v) j = memRead m j)) ∧
  (∀ (a : Accumulator) (i : Byte), a.Legal → fits a.cfg.w (memRead a.table i)) ∧
  (∀ (c : Cfg) (m : Memory), m.wf →
    (List.range 256).foldl (fun t i => memWrite t (BitVec.ofNat 8 i) c.w (foldBits c 0 (BitVec.ofNat 8 i))) m =
      buildTable c)

/-- Decoding a command's canonical word, on the wires or written out as bytes, gives the command with every operand
(R62 to R64; the byte form is the model's choice, log entry 10). -/
def Obligations.DecodeOfEncodeIsTheCommand : Prop :=
  ∀ i : Instr, decode (encode i) = i ∧ decodeBytes (encodeBytes i) = .ok i

/-- R63, R64: whatever the unused fields hold, the word is the command of its `OP` with that command's own fields; every
word is such a word; and the word the encoder writes is canonical. -/
def Obligations.UnusedFieldsAreIgnored : Prop :=
  (∀ (refin refout : Bool) (width : BitVec 8) (len : BitVec 16) (poly init xorout : Word),
    decode (packFields 0b00#2 refin refout width len poly init xorout) =
      .config width poly init refin refout xorout ∧
    decode (packFields 0b01#2 refin refout width len poly init xorout) = .reset ∧
    decode (packFields 0b10#2 refin refout width len poly init xorout) = .process len ∧
    decode (packFields 0b11#2 refin refout width len poly init xorout) = .checksum) ∧
  (∀ cw : CommandWord, ∃ op refin refout width len poly init xorout,
    cw = packFields op refin refout width len poly init xorout) ∧
  (∀ i : Instr, (encode i).canonical = true)

/-- The canonical words are exactly the words the encoder writes (R64, U16). -/
def Obligations.CanonicalWordsAreTheEncodedOnes : Prop :=
  ∀ cw : CommandWord, cw.canonical = true ↔ encode (decode cw) = cw

/-- R78: the encoding examples, the all-ones word, and the response examples. The spec marks R78 as its own inference
("[derived: ...]"). -/
def Obligations.EncodingExamples : Prop :=
  (let words (l : Line) : List (CommandWord × List Element) := (assembleLine l).map fun t => (encode t.instr, t.payload)
   words (.config { width := 16, poly := 0x8005, refin := true }) =
      [(0x0000000000000000000000000000000000000000000080050000104#220, [])] ∧
    words (.config { width := 16, poly := 0x1021 }) =
      [(0x0000000000000000000000000000000000000000000010210000100#220, [])] ∧
    words (.config { width := 32, poly := 0x04C11DB7, init := 0xFFFFFFFF, refin := true, xorout := 0xFFFFFFFF }) =
      [(0x00000000FFFFFFFF00000000FFFFFFFF0000000004C11DB70000204#220, [])] ∧
    words (.config { width := 8, poly := 0x8005 }) =
      [(0x0000000000000000000000000000000000000000000080050000080#220, [])] ∧
    words (.config { width := 0, poly := 0x8005 }) =
      [(0x0000000000000000000000000000000000000000000080050000000#220, [])] ∧
    words (.config { width := 65, poly := 0x8005 }) =
      [(0x0000000000000000000000000000000000000000000080050000410#220, [])] ∧
    words .reset = [(0x0000000000000000000000000000000000000000000000000000001#220, [])] ∧
    words (.process []) = [(0x0000000000000000000000000000000000000000000000000000002#220, [])] ∧
    words (.text "123456789") = [(0x0000000000000000000000000000000000000000000000000009002#220,
      [0x031#9, 0x032#9, 0x033#9, 0x034#9, 0x035#9, 0x036#9, 0x037#9, 0x038#9, 0x039#9])] ∧
    words (.process [.byte 0x31, .nb]) =
      [(0x0000000000000000000000000000000000000000000000000002002#220, [0x031#9, 0x100#9])] ∧
    words .checksum = [(0x0000000000000000000000000000000000000000000000000000003#220, [])]) ∧
  decode 0x0000000000000000000000000000000000000000000080050000104#220 =
    .config 16#8 0x8005#64 0#64 true false 0#64 ∧
  decode (BitVec.allOnes 220) = .checksum ∧
  Response.word ⟨.ok, 0xBB3D#64⟩ = 0x2ECF4#66 ∧ Response.word ⟨.invalidParameter, 0⟩ = 0x1#66 ∧
  Response.word ⟨.invalidInput, 0⟩ = 0x2#66 ∧ Response.word ⟨.refused, 0⟩ = 0x3#66 ∧
  Response.word ⟨.ok, 0⟩ = 0x0#66

/-- R69: a response word carries its status code in bits 1:0 and its value in bits 65:2, no two responses share a word,
every word is a response, and every command answers with one response. -/
def Obligations.ResponseWordCarriesStatusAndValue : Prop :=
  (∀ r : Response, Response.ofWord r.word = r ∧ r.word.extractLsb' 0 2 = r.status.code ∧ r.word.extractLsb' 2 64 = r.value) ∧
  (∀ rw : ResponseWord, (Response.ofWord rw).word = rw) ∧
  Status.code .ok = 0b00#2 ∧ Status.code .invalidParameter = 0b01#2 ∧ Status.code .invalidInput = 0b10#2 ∧
  Status.code .refused = 0b11#2 ∧
  (∀ (i : Instr) (s t : State), exec i s = .next t → ∃ r, t.rspOut = s.rspOut ++ [r])

/-- R75 (b), R67: the commands a PROCESS line of bytes expands to, however long it is, are well formed, of at most 65535
elements, carry the elements in order, and fold the whole message. -/
def Obligations.LongPayloadSplitsIntoCommands : Prop :=
  ∀ (s : State) (a : Accumulator) (elements : List Element), s.acc = some a → s.cmdIn = [] → s.datIn = [] →
    (∀ e ∈ elements, elementNB e = false) →
    (∀ t ∈ assembleProcess elements, t.wf = true ∧ t.payload.length ≤ 65535) ∧
    (assembleProcess elements).flatMap (fun t => t.payload) = elements ∧
    ∃ t, run (assembleProcess elements).length (s.present (assembleProcess elements)) = .next t ∧
      t.acc = some { a with reg := foldBytes a.cfg a.table a.reg (elements.map elementByte) } ∧
      t.cmdIn = [] ∧ t.datIn = []

/-- R75 (b), R116 for lines that may hold `NB`: each command of the line fails or folds by its own piece. Where the line
is cut, every piece but the last at 65535 elements, is the model's choice (log entry 15). -/
def Obligations.LongPayloadAnswersPieceByPiece : Prop :=
  ∀ (s : State) (a : Accumulator) (elements : List Element), s.acc = some a → s.cmdIn = [] → s.datIn = [] →
    let pieces := (assembleProcess elements).map fun t => t.payload
    pieces.flatten = elements ∧ (∀ p ∈ pieces.dropLast, p.length = 65535) ∧
    ∃ t, run pieces.length (s.present (assembleProcess elements)) = .next t ∧ t.cmdIn = [] ∧ t.datIn = [] ∧
      t.acc = some { a with reg := pieces.foldl (fun r p =>
        if p.any elementNB then r else foldBytes a.cfg a.table r (p.map elementByte)) a.reg } ∧
      t.rspOut = s.rspOut ++ pieces.map fun p => if p.any elementNB then ⟨.invalidInput, 0⟩ else ⟨.ok, 0⟩

/-! ### The step (00_scope.md R8, 30_encoding.md R61) -/

/-- A step at which the host presents a command word is the decoded command's execution, the word taken from the
command port (R8, R49, R61). -/
def Obligations.StepRunsTheDecodedCommand : Prop :=
  ∀ (s : State) (cw : CommandWord) (later : List HostInput), s.cmdIn = .command cw :: later →
    step s = exec (decode cw) { s with cmdIn := later }

/-- While the host does nothing the block holds its state (R167; the idle step is the model's choice, log entry 13). -/
def Obligations.IdleBlockHoldsItsState : Prop :=
  ∀ s : State, s.cmdIn = [] → step s = .next s

/-! ### 40_config.md -/

/-- R93: the reflected polynomial is the bit reversal of the polynomial within W bits; the four examples. -/
def Obligations.ReflectedPolynomial : Prop :=
  (∀ c : Cfg, c.Legal → fits c.w (prefl c) ∧
    ∀ i, i < c.w → (prefl c).getLsbD i = c.poly.getLsbD (c.w - 1 - i)) ∧
  prefl ⟨16#7, 0x8005#64, 0#64, true, false, 0#64⟩ = 0xA001#64 ∧
  prefl ⟨32#7, 0x04C11DB7#64, 0#64, true, false, 0#64⟩ = 0xEDB88320#64 ∧
  prefl ⟨5#7, 0x05#64, 0#64, true, false, 0#64⟩ = 0x14#64 ∧
  prefl ⟨64#7, 0x42F0E1EBA9EA3693#64, 0#64, true, false, 0#64⟩ = 0xC96C5795D7870F42#64

/-- R94, R95 over unbounded numbers: the single-bit steps of both conventions. The spec marks both rules "[from general
knowledge, not in source]". -/
def Obligations.SingleBitSteps : Prop :=
  ∀ (c : Cfg) (r : Word) (d : Bool), c.Legal → fits c.w r →
    (stepMSB c r d).toNat =
      (if (r.toNat.testBit (c.w - 1) ^^ d) = true
        then ((r.toNat <<< 1) &&& (2 ^ c.w - 1)) ^^^ c.poly.toNat
        else (r.toNat <<< 1) &&& (2 ^ c.w - 1)) ∧
    (stepLSB c r d).toNat =
      (if (r.toNat.testBit 0 ^^ d) = true then (r.toNat >>> 1) ^^^ (prefl c).toNat else r.toNat >>> 1) ∧
    fits c.w (stepMSB c r d) ∧ fits c.w (stepLSB c r d)

/-- R96: the bits of the byte in the order of the convention, the result below 2^W, and the two worked examples. -/
def Obligations.FoldBitsConsumesTheByteInOrder : Prop :=
  (∀ (c : Cfg) (r : Word) (b : Byte), c.Legal → fits c.w r →
    fits c.w (foldBits c r b) ∧
    (c.refin = false → foldBits c r b =
      stepMSB c (stepMSB c (stepMSB c (stepMSB c (stepMSB c (stepMSB c (stepMSB c (stepMSB c r
        (b.getLsbD 7)) (b.getLsbD 6)) (b.getLsbD 5)) (b.getLsbD 4)) (b.getLsbD 3)) (b.getLsbD 2)) (b.getLsbD 1))
        (b.getLsbD 0)) ∧
    (c.refin = true → foldBits c r b =
      stepLSB c (stepLSB c (stepLSB c (stepLSB c (stepLSB c (stepLSB c (stepLSB c (stepLSB c r
        (b.getLsbD 0)) (b.getLsbD 1)) (b.getLsbD 2)) (b.getLsbD 3)) (b.getLsbD 4)) (b.getLsbD 5)) (b.getLsbD 6))
        (b.getLsbD 7))) ∧
  ([false, false, true, true, false, false, false, true].scanl
      (stepMSB ⟨8#7, 0x07#64, 0#64, false, false, 0#64⟩) 0#64 =
    [0x00#64, 0x00#64, 0x00#64, 0x07#64, 0x09#64, 0x12#64, 0x24#64, 0x48#64, 0x97#64]) ∧
  foldBits ⟨8#7, 0x07#64, 0#64, false, false, 0#64⟩ 0#64 0x31#8 = 0x97#64 ∧
  ([true, false, false, false, true, true, false, false].scanl
      (stepLSB ⟨16#7, 0x8005#64, 0#64, true, false, 0#64⟩) 0#64 =
    [0x0000#64, 0xA001#64, 0xF001#64, 0xD801#64, 0xCC01#64, 0x6600#64, 0x9301#64, 0xE981#64, 0xD4C1#64]) ∧
  foldBits ⟨16#7, 0x8005#64, 0#64, true, false, 0#64⟩ 0#64 0x31#8 = 0xD4C1#64

/-- R90, R91, R97, R100, R101: CONFIG succeeds for exactly the widths 1..64, in every state, and then constructs the
whole accumulator of its operands in place of whatever was there; for every other width it answers
`InvalidParameter` and writes nothing. -/
def Obligations.ConfigConstructsTheAccumulator : Prop :=
  (∀ (width : BitVec 8) (poly init : Word) (refin refout : Bool) (xorout : Word) (s : State),
    (1 ≤ width.toNat → width.toNat ≤ 64 →
      ∃ a : Accumulator,
        exec (.config width poly init refin refout xorout) s =
          .next { s with acc := some a, rspOut := s.rspOut ++ [⟨.ok, 0⟩] } ∧
        a.cfg.w = width.toNat ∧ a.cfg.poly = poly &&& mask width.toNat ∧ a.cfg.init = init &&& mask width.toNat ∧
        a.cfg.refin = refin ∧ a.cfg.refout = refout ∧ a.cfg.xorout = xorout &&& mask width.toNat ∧
        a.reg = a.cfg.init ∧ a.table.length = 256 ∧
        ∀ i : Byte, memRead a.table i = foldBits a.cfg 0 i ∧ fits a.cfg.w (memRead a.table i)) ∧
    (width.toNat = 0 ∨ 65 ≤ width.toNat →
      exec (.config width poly init refin refout xorout) s =
        .next { s with rspOut := s.rspOut ++ [⟨.invalidParameter, 0⟩] })) ∧
  (∀ s : State, ∃ a : Accumulator,
    exec (.config 16#8 0x8005#64 0#64 true false 0#64) s =
      .next { s with acc := some a, rspOut := s.rspOut ++ [⟨.ok, 0⟩] } ∧
    a.cfg = ⟨16#7, 0x8005#64, 0#64, true, false, 0#64⟩ ∧ a.reg = 0 ∧
    memRead a.table 1#8 = 0xC0C1#64 ∧ memRead a.table 0x80#8 = 0xA001#64)

/-- R92: bits at or above position `WIDTH` of the three numeric operands vanish without error; the examples; width 64.
-/
def Obligations.ConfigMasksItsOperands : Prop :=
  (∀ (width : BitVec 8) (poly init : Word) (refin refout : Bool) (xorout : Word) (s : State),
    1 ≤ width.toNat → width.toNat ≤ 64 →
    ∃ (t : State) (a : Accumulator),
      exec (.config width poly init refin refout xorout) s = .next t ∧ t.acc = some a ∧
      t.rspOut = s.rspOut ++ [⟨.ok, 0⟩] ∧
      (∀ i, a.cfg.poly.getLsbD i = (decide (i < width.toNat) && poly.getLsbD i) ∧
        a.cfg.init.getLsbD i = (decide (i < width.toNat) && init.getLsbD i) ∧
        a.cfg.xorout.getLsbD i = (decide (i < width.toNat) && xorout.getLsbD i)) ∧
      (width.toNat = 64 → a.cfg.poly = poly ∧ a.cfg.init = init ∧ a.cfg.xorout = xorout)) ∧
  (∀ s : State, ∃ (t : State) (a : Accumulator),
    exec (.config 12#8 0xFFFFF80F#64 0xABCD#64 false false 0x12345#64) s = .next t ∧ t.acc = some a ∧
    a.cfg.poly = 0x80F#64 ∧ a.cfg.init = 0xBCD#64 ∧ a.cfg.xorout = 0x345#64) ∧
  (∀ s : State, ∃ (t : State) (a : Accumulator),
    exec (.config 8#8 0x8005#64 0#64 false false 0#64) s = .next t ∧ t.acc = some a ∧ a.cfg.poly = 0x05#64)

/-- R99: CONFIG ends with `REG = CFG.INIT`, the masked seed unreversed, and a RESET right after it changes nothing of
the block. -/
def Obligations.ConfigSeedsTheRegister : Prop :=
  ∀ (width : BitVec 8) (poly init : Word) (refin refout : Bool) (xorout : Word) (s : State),
    1 ≤ width.toNat → width.toNat ≤ 64 →
    ∃ (t : State) (a : Accumulator),
      exec (.config width poly init refin refout xorout) s = .next t ∧ t.acc = some a ∧
      a.reg = init &&& mask width.toNat ∧ a.cfg.init = a.reg ∧
      exec .reset t = .next { t with rspOut := t.rspOut ++ [⟨.ok, 0⟩] }

/-- R98: the two usual table generators give the entries of R97. The spec marks R98 as its own inference ("[derived:
...]"). -/
def Obligations.UsualTableGenerators : Prop :=
  ∀ (c : Cfg) (i : Byte), c.Legal →
    (c.refin = true →
      memRead (buildTable c) i =
        (fun r : Word => (r >>> 1) ^^^ (if r.getLsbD 0 then prefl c else 0))^[8] (i.setWidth 64)) ∧
    (c.refin = false → 8 ≤ c.w →
      memRead (buildTable c) i =
        (fun r : Word => ((r <<< 1) &&& mask c.w) ^^^ (if r.getLsbD (c.w - 1) then c.poly else 0))^[8]
          (i.setWidth 64 <<< (c.w - 8)))

/-- R104: entry 0 is 0; the table is XOR-linear; entry 1 is the polynomial (non-reflected), entry 0x80 the reflected
polynomial (reflected); the zero polynomial's table is zero; width 1 with polynomial 1 gives the parity of the index.
The spec marks R104 as its own inference ("[derived: ...]"). -/
def Obligations.TableProperties : Prop :=
  ∀ c : Cfg, c.Legal →
    memRead (buildTable c) 0 = 0 ∧
    (∀ i j : Byte, memRead (buildTable c) (i ^^^ j) = memRead (buildTable c) i ^^^ memRead (buildTable c) j) ∧
    (c.refin = false → memRead (buildTable c) 0x01#8 = c.poly) ∧
    (c.refin = true → memRead (buildTable c) 0x80#8 = prefl c) ∧
    (c.poly = 0 → ∀ i : Byte, memRead (buildTable c) i = 0) ∧
    (c.w = 1 → c.poly = 1 → ∀ i : Byte, memRead (buildTable c) i =
      if (((List.range 8).filter fun k => i.getLsbD k).length % 2) = 1 then 1 else 0)

/-- R105: the worked table entries. The columns are the indices 0x00, 0x01, 0x02, 0x03, 0x31, 0x7F, 0x80 and 0xFF; at
width 64 those the spec gives. The spec marks R105 as its own inference ("[derived: ...]"). -/
def Obligations.WorkedTableEntries : Prop :=
  let entries (width : BitVec 7) (poly : Word) (refin : Bool) (indices : List Byte) : List Word :=
    indices.map (memRead (buildTable ⟨width, poly, 0#64, refin, false, 0#64⟩))
  let columns : List Byte := [0x00#8, 0x01#8, 0x02#8, 0x03#8, 0x31#8, 0x7F#8, 0x80#8, 0xFF#8]
  (entries 16#7 0x8005#64 true columns =
    [0x0000#64, 0xC0C1#64, 0xC181#64, 0x0140#64, 0xD4C1#64, 0xE041#64, 0xA001#64, 0x4040#64] ∧
  entries 16#7 0x1021#64 false columns =
    [0x0000#64, 0x1021#64, 0x2042#64, 0x3063#64, 0x2672#64, 0x8F78#64, 0x9188#64, 0x1EF0#64] ∧
  entries 8#7 0x05#64 false columns = [0x00#64, 0x05#64, 0x0A#64, 0x0F#64, 0xF5#64, 0x86#64, 0x8A#64, 0x0C#64] ∧
  entries 8#7 0x07#64 false columns = [0x00#64, 0x07#64, 0x0E#64, 0x09#64, 0x97#64, 0x7A#64, 0x89#64, 0xF3#64]) ∧
  (entries 32#7 0x04C11DB7#64 true columns =
    [0x00000000#64, 0x77073096#64, 0xEE0E612C#64, 0x990951BA#64, 0x51DE003A#64, 0xC0BA6CAD#64, 0xEDB88320#64,
     0x2D02EF8D#64] ∧
  entries 32#7 0x04C11DB7#64 false columns =
    [0x00000000#64, 0x04C11DB7#64, 0x09823B6E#64, 0x0D4326D9#64, 0xD0F37027#64, 0xD8FBA05A#64, 0x690CE0EE#64,
     0xB1F740B4#64]) ∧
  (entries 5#7 0x05#64 true columns = [0x00#64, 0x0E#64, 0x1C#64, 0x12#64, 0x1D#64, 0x11#64, 0x14#64, 0x05#64] ∧
  entries 3#7 0x3#64 false columns = [0x0#64, 0x3#64, 0x6#64, 0x5#64, 0x0#64, 0x0#64, 0x3#64, 0x3#64] ∧
  entries 7#7 0x09#64 false columns = [0x00#64, 0x09#64, 0x12#64, 0x1B#64, 0x22#64, 0x38#64, 0x41#64, 0x79#64] ∧
  (∀ refin : Bool, entries 1#7 0x1#64 refin columns = [0#64, 1#64, 1#64, 0#64, 1#64, 1#64, 1#64, 0#64])) ∧
  entries 64#7 0x42F0E1EBA9EA3693#64 true [0x00#8, 0x01#8, 0x80#8, 0xFF#8] =
    [0#64, 0xB32E4CBE03A75F6F#64, 0xC96C5795D7870F42#64, 0xE0ADA17364673F59#64] ∧
  entries 64#7 0x42F0E1EBA9EA3693#64 false [0x00#8, 0x01#8, 0x31#8, 0x80#8, 0xFF#8] =
    [0#64, 0x42F0E1EBA9EA3693#64, 0xE8B768EB18C8B8A2#64, 0xF6FAE5C07D3274CD#64, 0x9AFCE626CE85B507#64]

/-! ### 41_reset.md -/

/-- R110: RESET seeds `REG` and writes nothing else; without an accumulator it is refused. -/
def Obligations.ResetReseedsTheRegister : Prop :=
  (∀ (s : State) (a : Accumulator), s.acc = some a →
    exec .reset s = .next { s with acc := some { a with reg := a.cfg.init }, rspOut := s.rspOut ++ [⟨.ok, 0⟩] }) ∧
  (∀ s : State, s.acc = none → exec .reset s = .next { s with rspOut := s.rspOut ++ [⟨.refused, 0⟩] }) ∧
  (∃ t u v : State, ∃ a b : Accumulator,
    exec (.config 16#8 0x1021#64 0xFFFF#64 false false 0#64) State.reset = .next t ∧
    exec (.process 9#16)
      { t with datIn := [0x31#9, 0x32#9, 0x33#9, 0x34#9, 0x35#9, 0x36#9, 0x37#9, 0x38#9, 0x39#9] } = .next u ∧
    u.acc = some a ∧ a.reg = 0x29B1#64 ∧ exec .reset u = .next v ∧ v.acc = some b ∧ b.reg = 0xFFFF#64)

/-- R111: RESET leaves the seed, unreversed, whatever `REG` was; two RESETs leave what one leaves; and a RESET after
any commands that construct nothing new, a failed CONFIG (R100) among them, leaves the block as the CONFIG that
created the accumulator left it. -/
def Obligations.ResetErasesTheHistory : Prop :=
  (∀ (s : State) (a : Accumulator), s.acc = some a →
    ∃ t u b, exec .reset s = .next t ∧ t.acc = some b ∧ b.reg = a.cfg.init ∧ exec .reset t = .next u ∧
      u.acc = t.acc) ∧
  (∀ (c : Cfg) (n : Nat) (s t : State), s.acc = some (seeded c) →
    (∀ h ∈ s.cmdIn.take n, ∃ cw, h = .command cw ∧ (cw.op ≠ 0b00#2 ∨ cw.width.toNat = 0 ∨ 65 ≤ cw.width.toNat)) → run n s = .next t →
    ∃ u, exec .reset t = .next u ∧ u.acc = some (seeded c))

/-! ### 42_process.md -/

/-- R115, R116: PROCESS is refused without an accumulator, taking no element; else it takes its `LEN` elements, and any
element with `NB = 1` fails the whole payload with `REG` unwritten; else the bytes are folded into `REG` in order. -/
def Obligations.ProcessFoldsItsPayload : Prop :=
  (∀ (s : State) (len : BitVec 16), s.acc = none →
    exec (.process len) s = .next { s with rspOut := s.rspOut ++ [⟨.refused, 0⟩] }) ∧
  (∀ (s : State) (a : Accumulator) (len : BitVec 16) (payload rest : List Element),
    s.acc = some a → s.datIn = payload ++ rest → payload.length = len.toNat →
    ((∃ e ∈ payload, elementNB e = true) →
      exec (.process len) s = .next { s with datIn := rest, rspOut := s.rspOut ++ [⟨.invalidInput, 0⟩] }) ∧
    ((∀ e ∈ payload, elementNB e = false) →
      exec (.process len) s =
        .next { s with
          acc := some { a with reg := foldBytes a.cfg a.table a.reg (payload.map elementByte) }
          datIn := rest
          rspOut := s.rspOut ++ [⟨.ok, 0⟩] })) ∧
  (∃ t u : State, ∃ a : Accumulator,
    exec (.config 16#8 0x8005#64 0#64 true false 0#64) State.reset = .next t ∧
    exec (.process 1#16) { t with datIn := [0x31#9] } = .next u ∧ u.acc = some a ∧ a.reg = 0xD4C1#64)

/-- R117: the empty payload takes no element and leaves `REG` unchanged; the source's known-vector scenario. -/
def Obligations.EmptyPayloadIsANoOp : Prop :=
  (∀ (s : State) (a : Accumulator), s.acc = some a →
    exec (.process 0#16) s = .next { s with rspOut := s.rspOut ++ [⟨.ok, 0⟩] }) ∧
  (∀ (width : BitVec 8) (poly : Word) (refin refout : Bool) (s : State), 1 ≤ width.toNat → width.toNat ≤ 64 →
    ∃ t u v, exec (.config width poly 0 refin refout 0) s = .next t ∧ exec (.process 0#16) t = .next u ∧
      exec .checksum u = .next v ∧ v.rspOut = u.rspOut ++ [⟨.ok, 0⟩])

/-- R118, R119, R121 over unbounded numbers: the index, the one table entry read, the shift and the mask of one fold. -/
def Obligations.FoldTableFormula : Prop :=
  ∀ (c : Cfg) (table : Memory) (r : Word) (b : Byte), c.Legal → fits c.w r →
    (c.refin = true →
      (foldTable c table r b).toNat =
        (memRead table (BitVec.ofNat 8 ((r.toNat ^^^ b.toNat) &&& 0xFF))).toNat ^^^ (r.toNat >>> 8)) ∧
    (c.refin = false → 8 ≤ c.w →
      (foldTable c table r b).toNat =
        ((r.toNat <<< 8) &&& (2 ^ c.w - 1)) ^^^
          (memRead table (BitVec.ofNat 8 (((r.toNat >>> (c.w - 8)) ^^^ b.toNat) &&& 0xFF))).toNat) ∧
    (c.refin = false → c.w < 8 →
      (foldTable c table r b).toNat =
        (memRead table (BitVec.ofNat 8 (((r.toNat <<< (8 - c.w)) ^^^ b.toNat) &&& 0xFF))).toNat)

/-- R122: for every legal parameter set, every W-bit register and every byte, the table-driven fold equals the
bit-serial reference. The spec marks R122 as its own inference ("[derived: ...]"). -/
def Obligations.TableFoldEqualsBitSerialFold : Prop :=
  ∀ (c : Cfg) (r : Word) (b : Byte), c.Legal → fits c.w r → foldTable c (buildTable c) r b = foldBits c r b

/-- R123: a fold keeps the register below 2^W. The spec marks R123 as its own inference ("[derived: ...]"). -/
def Obligations.FoldKeepsTheWidth : Prop :=
  ∀ (c : Cfg) (r : Word) (b : Byte), c.Legal → fits c.w r → fits c.w (foldTable c (buildTable c) r b)

/-- R124: folding a concatenation is folding its parts in turn; a successful PROCESS of B sets `REG` to `Fold*(REG,
B)`; after a RESET, PROCESS of B1 and then of B2 leaves the block as PROCESS of B1 concat B2 does, and the checksums
agree. -/
def Obligations.SplittingAMessageChangesNothing : Prop :=
  (∀ (c : Cfg) (table : Memory) (r : Word) (b1 b2 : List Byte),
    foldBytes c table r (b1 ++ b2) = foldBytes c table (foldBytes c table r b1) b2) ∧
  (∀ (s : State) (a : Accumulator) (n : BitVec 16) (b rest : List Element), s.acc = some a → b.length = n.toNat →
    s.datIn = b ++ rest → (∀ e ∈ b, elementNB e = false) →
    ∃ t, exec (.process n) s = .next t ∧
      t.acc = some { a with reg := foldBytes a.cfg a.table a.reg (b.map elementByte) }) ∧
  ∀ (s : State) (a : Accumulator) (n1 n2 : BitVec 16) (b1 b2 rest : List Element), s.acc = some a →
    b1.length = n1.toNat → b2.length = n2.toNat → n1.toNat + n2.toNat ≤ 65535 → s.datIn = b1 ++ b2 ++ rest →
    (∀ e ∈ b1 ++ b2, elementNB e = false) →
    ∃ r t1 t2 t u2 u, exec .reset s = .next r ∧
      exec (.process n1) r = .next t1 ∧ exec (.process n2) t1 = .next t2 ∧
      exec (.process (n1 + n2)) r = .next t ∧
      t2.acc = some { a with reg := foldBytes a.cfg a.table a.cfg.init ((b1 ++ b2).map elementByte) } ∧
      t.acc = t2.acc ∧ t.datIn = rest ∧ t2.datIn = rest ∧
      exec .checksum t2 = .next u2 ∧ exec .checksum t = .next u ∧
      ∃ x, u2.rspOut = t2.rspOut ++ [⟨.ok, x⟩] ∧ u.rspOut = t.rspOut ++ [⟨.ok, x⟩]

/-- R125: the first element is folded first, and the order matters. -/
def Obligations.OrderOfBytesMatters : Prop :=
  (∀ (c : Cfg) (table : Memory) (r : Word) (b : Byte) (later : List Byte),
    foldBytes c table r (b :: later) = foldBytes c table (foldTable c table r b) later) ∧
  (let c : Cfg := ⟨16#7, 0x8005#64, 0#64, true, false, 0#64⟩
   foldBytes c (buildTable c) 0 [0x31#8, 0x32#8] = 0x4594#64 ∧ foldBytes c (buildTable c) 0 [0x32#8, 0x31#8] = 0xB4D4#64)

/-- R126: folding is linear over GF(2); a fold is the fold of a zero byte XOR a table entry; zero bytes folded into a
zero register leave it zero. The spec marks R126 as its own inference ("[derived: ...]"). -/
def Obligations.FoldIsLinear : Prop :=
  ∀ c : Cfg, c.Legal →
    (∀ (r r' : Word) (b b' : Byte), fits c.w r → fits c.w r' →
      foldBits c (r ^^^ r') (b ^^^ b') = foldBits c r b ^^^ foldBits c r' b') ∧
    (∀ (r : Word) (b : Byte), fits c.w r → foldBits c r b = foldBits c r 0 ^^^ memRead (buildTable c) b) ∧
    (∀ n : Nat, foldBytes c (buildTable c) 0 (List.replicate n 0) = 0)

/-- R127 (general knowledge, log entry 12): `REG` after a message is the remainder over GF(2) of the message polynomial
times x^W, the seed XORed into the first W bits, divided by the generator; reversed when the convention is reflected. -/
def Obligations.RegisterIsTheRemainder : Prop :=
  ∀ (c : Cfg) (message : List Byte), c.Legal →
    let r := foldBytes c (buildTable c) c.init message
    let dividend (seed : Word) : Nat :=
      (messagePoly (messageBits c.refin message) <<< c.w) ^^^ (seed.toNat <<< (8 * message.length))
    (c.refin = false → isRemainder (dividend c.init) (generator c) c.w r.toNat) ∧
    (c.refin = true → isRemainder (dividend (rev c.w c.init)) (generator c) c.w (rev c.w r).toNat)

/-- Corner cases of R128: the zero polynomial only shifts, whatever the byte, and clears `REG` after W bits' worth of
bytes; index 0 is a pure shift; width 8 reads `TABLE[REG XOR b]`; width 1 with polynomial 1 accumulates the parity.
The spec marks R128 as its own inference ("[derived: ...]"). -/
def Obligations.FoldCornerCases : Prop :=
  ∀ (c : Cfg) (r : Word), c.Legal → fits c.w r →
    (c.poly = 0 → (∀ b : Byte, foldTable c (buildTable c) r b = if c.refin then r >>> 8 else (r <<< 8) &&& mask c.w) ∧
      ∀ bytes : List Byte, c.w ≤ 8 * bytes.length → foldBytes c (buildTable c) r bytes = 0) ∧
    (∀ b : Byte, tableIndex c r b = 0 →
      foldTable c (buildTable c) r b = if c.refin then r >>> 8 else (r <<< 8) &&& mask c.w) ∧
    (c.w = 8 → ∀ b : Byte, foldTable c (buildTable c) r b = memRead (buildTable c) (r.setWidth 8 ^^^ b)) ∧
    (c.w = 1 → c.poly = 1 → ∀ bytes : List Byte, foldBytes c (buildTable c) r bytes =
      r ^^^ (if (bytes.flatMap fun b => (List.range 8).filter fun k => b.getLsbD k).length % 2 = 1 then 1 else 0))

/-- R129: the worked example, reflected and non-reflected, register by register. The spec marks R129 as its own
inference ("[derived: ...]"). -/
def Obligations.WorkedTrace : Prop :=
  let text : List Byte := [0x31#8, 0x32#8, 0x33#8, 0x34#8, 0x35#8, 0x36#8, 0x37#8, 0x38#8, 0x39#8]
  let arc : Cfg := ⟨16#7, 0x8005#64, 0#64, true, false, 0#64⟩
  let xmodem : Cfg := ⟨16#7, 0x1021#64, 0#64, false, false, 0#64⟩
  text.scanl (foldTable arc (buildTable arc)) 0#64 =
    [0x0000#64, 0xD4C1#64, 0x4594#64, 0xBA04#64, 0x14BA#64, 0xA455#64, 0x29E4#64, 0x9D68#64, 0x3C9D#64, 0xBB3D#64] ∧
  text.scanl (foldTable xmodem (buildTable xmodem)) 0#64 =
    [0x0000#64, 0x2672#64, 0x20B5#64, 0x9752#64, 0xD789#64, 0x546C#64, 0x20E4#64, 0x86D6#64, 0x9015#64, 0x31C3#64] ∧
  tableIndex arc 0xD4C1#64 0x32#8 = 0xF3#8 ∧ memRead (buildTable arc) 0xF3#8 = 0x4540#64 ∧
  tableIndex xmodem 0x2672#64 0x32#8 = 0x14#8 ∧ memRead (buildTable xmodem) 0x14#8 = 0x52B5#64

/-! ### 43_checksum.md -/

/-- R140, R141: CHECKSUM answers, bit by bit, the register, reversed within W bits when `CFG.REFOUT = 1`, XORed with
`CFG.XOROUT`, zero from bit W up; it writes nothing; without an accumulator it is refused. -/
def Obligations.ChecksumAnswersTheOutput : Prop :=
  (∀ (s : State) (a : Accumulator), s.acc = some a → a.Legal →
    ∃ value : Word, exec .checksum s = .next { s with rspOut := s.rspOut ++ [⟨.ok, value⟩] } ∧
      (∀ i, i < a.cfg.w → value.getLsbD i =
        ((if a.cfg.refout then a.reg.getLsbD (a.cfg.w - 1 - i) else a.reg.getLsbD i) ^^ a.cfg.xorout.getLsbD i)) ∧
      (∀ i, a.cfg.w ≤ i → value.getLsbD i = false) ∧
      value = (if a.cfg.refout then rev a.cfg.w a.reg else a.reg) ^^^ a.cfg.xorout) ∧
  (∀ s : State, s.acc = none → exec .checksum s = .next { s with rspOut := s.rspOut ++ [⟨.refused, 0⟩] }) ∧
  (∀ (s : State) (poly init : Word) (refin : Bool) (table : Memory),
    s.acc = some ⟨⟨32#7, poly, init, refin, false, 0xFFFFFFFF#64⟩, 0x340BC6D9#64, table⟩ →
    exec .checksum s = .next { s with rspOut := s.rspOut ++ [⟨.ok, 0xCBF43926#64⟩] })

/-- Every state, also without invariant: CHECKSUM answers a next state, and two in a row answer the same and write no
state, refused or not (R142). -/
def Obligations.ChecksumNeverMutates : Prop :=
  ∀ s : State, ∃ r, exec .checksum s = .next { s with rspOut := s.rspOut ++ [r] } ∧
    exec .checksum { s with rspOut := s.rspOut ++ [r] } = .next { s with rspOut := s.rspOut ++ [r] ++ [r] }

/-- R143: `PROCESS B1; CHECKSUM; PROCESS B2; CHECKSUM` answers the checksums of the two prefixes of the message. -/
def Obligations.ChecksumInterleaves : Prop :=
  ∀ (s : State) (a : Accumulator) (n1 n2 : BitVec 16) (b1 b2 rest : List Element) (later : List HostInput),
    s.acc = some a → b1.length = n1.toNat → b2.length = n2.toNat → (∀ e ∈ b1 ++ b2, elementNB e = false) →
    s.datIn = b1 ++ b2 ++ rest →
    s.cmdIn = [.command (encode (.process n1)), .command (encode .checksum), .command (encode (.process n2)),
      .command (encode .checksum)] ++ later →
    run 4 s = .next
      { acc := some { a with reg := foldBytes a.cfg a.table a.reg ((b1 ++ b2).map elementByte) }
        cmdIn := later
        datIn := rest
        rspOut := s.rspOut ++
          [⟨.ok, 0⟩, ⟨.ok, outFn a.cfg (foldBytes a.cfg a.table a.reg (b1.map elementByte))⟩,
           ⟨.ok, 0⟩, ⟨.ok, outFn a.cfg (foldBytes a.cfg a.table a.reg ((b1 ++ b2).map elementByte))⟩] }

/-- R144: right after a successful CONFIG, and right after a RESET, CHECKSUM answers
`finalXor XOR reflect(initialValue)`; the examples. -/
def Obligations.ChecksumOfTheSeededState : Prop :=
  (∀ (width : BitVec 8) (poly init : Word) (refin refout : Bool) (xorout : Word) (s : State),
    1 ≤ width.toNat → width.toNat ≤ 64 →
    ∃ t u, exec (.config width poly init refin refout xorout) s = .next t ∧ exec .checksum t = .next u ∧
      u.rspOut = t.rspOut ++ [⟨.ok,
        (xorout &&& mask width.toNat) ^^^
          (if refout then rev width.toNat (init &&& mask width.toNat) else init &&& mask width.toNat)⟩]) ∧
  (∀ (s : State) (a : Accumulator), s.acc = some a → a.Legal →
    ∃ t u, exec .reset s = .next t ∧ exec .checksum t = .next u ∧
      u.rspOut = t.rspOut ++ [⟨.ok, a.cfg.xorout ^^^ (if a.cfg.refout then rev a.cfg.w a.cfg.init else a.cfg.init)⟩]) ∧
  outFn ⟨16#7, 0x1021#64, 0x1D0F#64, false, true, 0x00FF#64⟩ 0x1D0F#64 = 0xF047#64 ∧
  outFn ⟨16#7, 0x1021#64, 0x1D0F#64, false, false, 0x00FF#64⟩ 0x1D0F#64 = 0x1DF0#64 ∧
  outFn ⟨8#7, 0x05#64, 0#64, false, false, 0#64⟩ 0#64 = 0#64

/-- R145 (the catalogue is general knowledge, log entry 12): CONFIG with the mapped operands, PROCESS of a message of
any length (as many commands as R75 (b) makes of it; where they are cut is log entry 15) and CHECKSUM answer the
checksum that the catalogue convention gives the entry, whatever the block held before. -/
def Obligations.CatalogueMapping : Prop :=
  ∀ (v : Variant) (message : List Byte) (s : State) (rest : List Element) (later : List HostInput),
    1 ≤ v.width → v.width ≤ 64 →
    let processes := assembleProcess (message.map byteElement)
    s.datIn = message.map byteElement ++ rest →
    s.cmdIn = [.command (encode v.configure)] ++ processes.map (fun t => .command (encode t.instr)) ++
      [.command (encode .checksum)] ++ later →
    ∃ t, run (processes.length + 2) s = .next t ∧ t.cmdIn = later ∧ t.datIn = rest ∧
      t.rspOut = s.rspOut ++ List.replicate (processes.length + 1) ⟨.ok, 0⟩ ++ [⟨.ok, v.crc message⟩]

/-- R146: the corner cases of the output. The spec marks R146 as its own inference ("[derived: ...]"). -/
def Obligations.ChecksumCornerCases : Prop :=
  (∀ c : Cfg, ∀ r : Word, c.Legal → fits c.w r →
    (c.w = 1 → outFn c r = outFn { c with refout := !c.refout } r) ∧
    (c.xorout = 0 → c.refout = false → outFn c r = r) ∧
    (c.xorout = mask c.w → ∀ i, i < c.w →
      (outFn c r).getLsbD i = !(if c.refout then rev c.w r else r).getLsbD i) ∧
    (c.w = 64 → c.refout = false → outFn c r = r ^^^ c.xorout) ∧
    (∀ i, c.w ≤ i → (outFn c r).getLsbD i = false)) ∧
  (∀ (s t u v : State) (a : Accumulator) (len : BitVec 16), s.acc = some a → exec (.process len) s = .next t →
    t.rspOut = s.rspOut ++ [⟨.invalidInput, 0⟩] → exec .checksum s = .next u → exec .checksum t = .next v →
    ∃ r, u.rspOut = s.rspOut ++ [r] ∧ v.rspOut = t.rspOut ++ [r]) ∧
  (∀ s : State, s.acc = none → exec .checksum s = .next { s with rspOut := s.rspOut ++ [⟨.refused, 0⟩] })

/-- R147: the worked examples of the output. The spec marks R147 as its own inference ("[derived: ...]"). -/
def Obligations.WorkedOutputs : Prop :=
  outFn ⟨16#7, 0x8005#64, 0#64, true, false, 0#64⟩ 0xBB3D#64 = 0xBB3D#64 ∧
  outFn ⟨16#7, 0x8005#64, 0#64, true, true, 0#64⟩ 0xBB3D#64 = 0xBCDD#64 ∧
  rev 12 0xF5B#64 = 0xDAF#64 ∧ outFn ⟨12#7, 0x80F#64, 0#64, false, true, 0#64⟩ 0xF5B#64 = 0xDAF#64 ∧
  outFn ⟨5#7, 0x05#64, 0x1F#64, true, false, 0x1F#64⟩ 0x06#64 = 0x19#64 ∧
  outFn ⟨3#7, 0x3#64, 0#64, false, false, 0x7#64⟩ 0x3#64 = 0x4#64 ∧
  outFn ⟨64#7, 0x42F0E1EBA9EA3693#64, 0xFFFFFFFFFFFFFFFF#64, true, false, 0xFFFFFFFFFFFFFFFF#64⟩ 0x66A2364420E6C605#64 =
    0x995DC9BBDF1939FA#64 ∧
  rev 32 0x0376E6E7#64 = 0xE7676EC0#64 ∧
  outFn ⟨32#7, 0x04C11DB7#64, 0xFFFFFFFF#64, false, true, 0xFFFFFFFF#64⟩ 0x0376E6E7#64 = 0x1898913F#64

/-! ### 60_exceptions.md -/

/-- R153 (that Refused is a next state with a response is log entry 3): without an accumulator RESET, PROCESS and
CHECKSUM answer `Refused` with value 0 and write nothing, a PROCESS taking no element whatever its payload; CONFIG is
never refused. -/
def Obligations.RefusedWithoutAnAccumulator : Prop :=
  (∀ s : State, s.acc = none →
    exec .reset s = .next { s with rspOut := s.rspOut ++ [⟨.refused, 0⟩] } ∧
    (∀ len, exec (.process len) s = .next { s with rspOut := s.rspOut ++ [⟨.refused, 0⟩] }) ∧
    exec .checksum s = .next { s with rspOut := s.rspOut ++ [⟨.refused, 0⟩] }) ∧
  (∀ (width : BitVec 8) (poly init : Word) (refin refout : Bool) (xorout : Word) (s : State),
    ∃ t r, exec (.config width poly init refin refout xorout) s = .next t ∧ t.rspOut = s.rspOut ++ [r] ∧
      r.status ≠ .refused)

/-- R151, R152, R153, R156, R158 (that Refused is a next state with a response is the model's choice, log entry 3): each
error has exactly its cause, found in the order of R156; its value is 0 and the block stays in
the state it was in; a PROCESS that fails with `InvalidInput` has consumed its `LEN` elements, a refused one none. -/
def Obligations.EachErrorHasItsCause : Prop :=
  ∀ (i : Instr) (s t : State), exec i s = .next t →
    ∃ r : Response, t.rspOut = s.rspOut ++ [r] ∧
      (r.status = .invalidParameter ↔
        ∃ width poly init refin refout xorout, i = .config width poly init refin refout xorout ∧
          (width.toNat = 0 ∨ 65 ≤ width.toNat)) ∧
      (r.status = .invalidInput ↔
        ∃ len, i = .process len ∧ s.valid = true ∧ ∃ e ∈ s.datIn.take len.toNat, elementNB e = true) ∧
      (r.status = .refused ↔ s.valid = false ∧ (i = .reset ∨ i = .checksum ∨ ∃ len, i = .process len)) ∧
      (r.status ≠ .ok → r.value = 0 ∧ t.acc = s.acc) ∧
      (r.status = .invalidInput → ∃ len, i = .process len ∧ s.datIn = s.datIn.take len.toNat ++ t.datIn ∧
        (s.datIn.take len.toNat).length = len.toNat) ∧
      (r.status = .refused → t.datIn = s.datIn)

/-- R155: when `VALID = 1`, RESET and CHECKSUM always succeed, and PROCESS succeeds for every payload the host delivers
whose elements are all bytes, the empty one too; no parameter, register value or byte can stop them. -/
def Obligations.WellFormedCommandsSucceed : Prop :=
  ∀ s : State, s.valid = true →
    (∃ t, exec .reset s = .next t ∧ t.rspOut = s.rspOut ++ [⟨.ok, 0⟩]) ∧
    (∃ t value, exec .checksum s = .next t ∧ t.rspOut = s.rspOut ++ [⟨.ok, value⟩]) ∧
    (∀ len : BitVec 16, s.delivers (.process len) → (∀ e ∈ s.datIn.take len.toNat, elementNB e = false) →
      ∃ t, exec (.process len) s = .next t ∧ t.rspOut = s.rspOut ++ [⟨.ok, 0⟩])

/-- R154: the outcomes of each command; a value other than 0 comes from a CHECKSUM with status `OK` alone (R70); no
command is refused a meaning, a `Refused` one neither, which is the model's choice (R153, U13; log entry 3). The spec
marks R154 as its own inference ("[derived: ...]"). -/
def Obligations.OutcomesOfEachCommand : Prop :=
  (∀ (i : Instr) (s t : State), exec i s = .next t →
    ∃ r : Response, t.rspOut = s.rspOut ++ [r] ∧ t.cmdIn = s.cmdIn ∧
      (match i with
        | .config _ _ _ _ _ _ => r.status = .ok ∨ r.status = .invalidParameter
        | .reset => r.status = .ok ∨ r.status = .refused
        | .process _ => r.status = .ok ∨ r.status = .invalidInput ∨ r.status = .refused
        | .checksum => r.status = .ok ∨ r.status = .refused) ∧
      (r.value ≠ 0 → i = .checksum ∧ r.status = .ok)) ∧
  (∀ (i : Instr) (s : State) (why : Refusal), exec i s ≠ .refused why)

/-- R158: a command whose response is not `OK` leaves `VALID`, every configuration register, `REG` and the table as they
were. -/
def Obligations.ErrorsWriteNoState : Prop :=
  ∀ (i : Instr) (s t : State) (r : Response), exec i s = .next t → t.rspOut = s.rspOut ++ [r] → r.status ≠ .ok →
    t.acc = s.acc

/-! ### 70_reset_and_hazards.md and the ports -/

/-- R180 (`rstDuring` is the model's form of R181, log entry 7; that no response word is driven under `rst`, and that
`cmd_ready` is up in the very state after it, are the model's choice, log entry 8): hardware reset leaves no
accumulator and is the only way `VALID` goes from 1 to 0; at the ports nothing is ready or presented while `rst = 1`,
nothing is transferred, and afterwards the block is ready for a command. -/
def Obligations.HardwareResetClearsValid : Prop :=
  (∀ (s : State) (later : List HostInput), s.cmdIn = .rst :: later →
    step s = .next { s with acc := none, cmdIn := later }) ∧
  (∀ s t : State, step s = .next t → s.valid = true → t.valid = false →
    ∃ later, s.cmdIn = .rst :: later ∨ ∃ cw taken, s.cmdIn = .rstDuring cw taken :: later) ∧
  (∀ (w : Wire) (inp : EdgeIn) (log : PortLog), inp.rst = true →
    w.edge inp = Wire.reset ∧ w.ports true = ⟨false, false, false, none⟩ ∧
    (log.edge inp w).elements = log.elements ∧ (log.edge inp w).responses = log.responses) ∧
  Wire.reset.acc = none ∧ (Wire.reset.ports false).cmdReady = true

/-- R181: `rst` in mid-command abandons the command: no response, the elements already transferred are lost (the
model's form of it is log entry 7), and the block is in the reset state, whichever command it was and however far it
had come. -/
def Obligations.ResetDuringACommandAbandonsIt : Prop :=
  (∀ (s : State) (cw : CommandWord) (taken : Nat) (later : List HostInput), s.cmdIn = .rstDuring cw taken :: later →
    step s = .next { s with
      acc := none
      cmdIn := later
      datIn := s.datIn.drop (min taken (if s.valid then (decode cw).payloadLength else 0)) }) ∧
  (∀ (w : Wire) (inp : EdgeIn), inp.rst = true → w.edge inp = ⟨none, .idle⟩)

/-- R182: until a CONFIG with a width in 1..64 is carried out, whatever commands come, there is no accumulator and no
response is `OK`; the first such CONFIG leaves the block seeded. -/
def Obligations.NothingWorksBeforeConfig : Prop :=
  (∀ (n : Nat) (s t : State), s.acc = none →
    (∀ cw, .command cw ∈ s.cmdIn.take n → cw.op = 0b00#2 → cw.width.toNat = 0 ∨ 65 ≤ cw.width.toNat) →
    run n s = .next t →
    t.acc = none ∧ t.datIn = s.datIn ∧ ∃ answers, t.rspOut = s.rspOut ++ answers ∧ ∀ r ∈ answers, r.status ≠ .ok) ∧
  (∀ s : State, s.acc = none → ∀ (cw : CommandWord) (later : List HostInput), s.cmdIn = .command cw :: later →
    cw.op = 0b00#2 → 1 ≤ cw.width.toNat → cw.width.toNat ≤ 64 →
    ∃ t a, step s = .next t ∧ t.acc = some a ∧ a.reg = a.cfg.init)

/-- R185 (b): a PROCESS whose host offers fewer than `LEN` elements has no move at the command level (log entry 4); at
the ports the block waits, accepts no command, and only hardware reset recovers. -/
def Obligations.MissingPayloadHangs : Prop :=
  (∀ (s : State) (a : Accumulator) (len : BitVec 16), s.acc = some a → s.datIn.length < len.toNat →
    exec (.process len) s = .fault .payloadNotDelivered) ∧
  (∀ (edges : List EdgeIn) (w : Wire) (log : PortLog) (cw : CommandWord) (got : List Element),
    w.phase = .collecting cw got → (∀ inp ∈ edges, inp.rst = false ∧ inp.datValid = false) →
    Wire.run edges (w, log) = (w, log) ∧ (w.ports false).cmdReady = false ∧ (w.ports false).datReady = true)

/-- R61: the block holds a PROCESS for its elements only when it is not refused and has taken fewer than `LEN`, and
executes with exactly the elements the command takes; every edge keeps this. -/
def Obligations.HandshakeTakesExactlyThePayload : Prop :=
  let held (w : Wire) : Prop :=
    match w.phase with
    | .idle => True
    | .collecting cw got => w.acc.isSome = true ∧ ∃ len, decode cw = .process len ∧ got.length < len.toNat
    | .executing cw payload => payload.length = elementsTaken w.acc (decode cw)
    | .responding _ _ _ => True
  held Wire.reset ∧ ∀ (w : Wire) (inp : EdgeIn), held w → held (w.edge inp)

/-- R61 step 4 (when the ready signals rise is the model's choice, log entry 8): the block holds `rsp_valid` and the
response word until the response is transferred, and accepts no command meanwhile. -/
def Obligations.ResponseIsHeldUntilTaken : Prop :=
  ∀ (w : Wire) (cw : CommandWord) (payload : List Element) (r : Response), w.phase = .responding cw payload r →
    w.ports false = ⟨false, false, true, some r.word⟩ ∧
    (∀ inp : EdgeIn, inp.rst = false → inp.rspReady = false → w.edge inp = w) ∧
    (∀ inp : EdgeIn, inp.rst = false → inp.rspReady = true →
      w.edge inp = ⟨w.acc, .idle⟩ ∧ ((w.edge inp).ports false).cmdReady = true)

/-- R187: given a host that keeps its duties, every command accepted at the ports is answered after finitely many edges,
with the response and the state that `exec` gives it, however many edges the host lets pass before each transfer and the
block before the command ends. That its end is an argument of the edge is the model's choice (log entry 8). -/
def Obligations.EveryCommandIsAnswered : Prop :=
  ∀ (w : Wire) (log : PortLog) (p : Schedule), w.phase = .idle → p.Proper →
    p.payload.length = elementsTaken w.acc (decode p.accept.cmd) →
    ∃ (acc : Option Accumulator) (r : Response),
      exec (decode p.accept.cmd) ⟨w.acc, [], p.payload, []⟩ = .next ⟨acc, [], [], [r]⟩ ∧
      Wire.run p.edges (w, log) =
        (⟨acc, .idle⟩, ⟨log.inputs ++ [.command p.accept.cmd], log.elements ++ p.payload, log.responses ++ [r]⟩)

/-- R8, R49, R61 (`rst` in mid-command is told as log entry 7 says; when the ready signals rise, and that a command's
end is an argument of the edge, is log entry 8): whatever the host and the latencies do, and wherever `rst` falls, a
run of edges from reset that ends between commands leaves the accumulator, and has handed over the responses, that the
command-level machine gives for the commands answered, the resets, and the elements taken. -/
def Obligations.PortRunsRefineCommandRuns : Prop :=
  ∀ (edges : List EdgeIn) (w : Wire) (log : PortLog), Wire.run edges (Wire.reset, PortLog.empty) = (w, log) →
    w.phase = .idle →
    run log.inputs.length { State.reset with cmdIn := log.inputs, datIn := log.elements } =
      .next ⟨w.acc, [], [], log.responses⟩
end

