-- ==== Sys2Proof/Laws/Bits.lean ====
section
/-! SUPPORT. The bits of masks, reversals and elements, and what "width-masked" says bit by bit. -/

namespace Sys2Proof.Machine

@[simp] theorem getLsbD_mask (n i : Nat) : (mask n).getLsbD i = (decide (i < 64) && decide (i < n)) := by
  simp [mask, BitVec.getLsbD_ofNat, Nat.testBit_two_pow_sub_one]

theorem toNat_mask {n : Nat} (h : n ≤ 64) : (mask n).toNat = 2 ^ n - 1 := by
  have : 2 ^ n ≤ 2 ^ 64 := Nat.pow_le_pow_right (by decide) h
  simp only [mask, BitVec.toNat_ofNat]
  exact Nat.mod_eq_of_lt (by have := Nat.two_pow_pos n; omega)

theorem getLsbD_revBits (n : Nat) (v : Word) (count i : Nat) :
    (revBits n v count).getLsbD i = (decide (i < 64) && decide (i < count) && v.getLsbD (n - 1 - i)) := by
  induction count with
  | zero => simp [revBits]
  | succ count ih =>
    have hbit : (1#64 <<< count).getLsbD i = (decide (i < 64) && decide (i = count)) := by
      rw [BitVec.getLsbD_shiftLeft]
      rcases Nat.lt_trichotomy i count with h | h | h
      · simp [h, Nat.ne_of_lt h]
      · simp [h]
      · have : i - count ≠ 0 := by omega
        simp [this, Nat.ne_of_gt h]
    rcases Nat.lt_trichotomy i count with h | h | h
    · simp only [revBits]
      split <;> simp only [BitVec.getLsbD_or, ih, hbit] <;> simp [h, Nat.ne_of_lt h, Nat.lt_succ_of_lt h]
    · subst h
      simp only [revBits]
      split <;> simp only [BitVec.getLsbD_or, ih, hbit] <;> simp_all
    · simp only [revBits]
      split <;> simp only [BitVec.getLsbD_or, ih, hbit] <;>
        simp [Nat.ne_of_gt h, Nat.not_lt.2 (Nat.le_of_lt h), Nat.not_lt.2 (Nat.succ_le_of_lt h)]

/-- R11: bit i of `rev_n(v)` is bit n−1−i of v. -/
@[simp] theorem getLsbD_rev (n : Nat) (v : Word) (i : Nat) :
    (rev n v).getLsbD i = (decide (i < 64) && decide (i < n) && v.getLsbD (n - 1 - i)) :=
  getLsbD_revBits n v n i

/-- A value is below 2^n exactly when its bits from n upward are zero. -/
theorem fits_iff (n : Nat) (v : Word) : fits n v ↔ ∀ i, n ≤ i → v.getLsbD i = false := by
  constructor
  · intro h i hi
    rw [BitVec.getLsbD]
    exact Nat.testBit_lt_two_pow (Nat.lt_of_lt_of_le h (Nat.pow_le_pow_right (by decide) hi))
  · intro h
    exact Nat.lt_pow_two_of_testBit _ fun i hi => h i hi

theorem fits_getLsbD {n : Nat} {v : Word} (h : fits n v) {i : Nat} (hi : n ≤ i) : v.getLsbD i = false :=
  (fits_iff n v).1 h i hi

theorem fits_and_mask (n : Nat) (v : Word) : fits n (v &&& mask n) := by
  rw [fits_iff]
  intro i hi
  simp [Nat.not_lt.2 hi]

theorem and_mask_of_fits {n : Nat} {v : Word} (h : fits n v) : v &&& mask n = v := by
  ext i hi
  by_cases hn : i < n
  · simp [hi, hn]
  · simp [BitVec.getLsbD_eq_getElem hi ▸ fits_getLsbD h (Nat.le_of_not_lt hn)]

theorem fits_xor {n : Nat} {u v : Word} (hu : fits n u) (hv : fits n v) : fits n (u ^^^ v) := by
  rw [fits_iff] at *
  intro i hi
  simp [hu i hi, hv i hi]

theorem fits_zero (n : Nat) : fits n 0 := by simp

theorem fits_rev (n : Nat) (v : Word) : fits n (rev n v) := by
  rw [fits_iff]
  intro i hi
  simp [Nat.not_lt.2 hi]

theorem fits_ushiftRight {n : Nat} {v : Word} (h : fits n v) (k : Nat) : fits n (v >>> k) := by
  rw [fits_iff] at *
  intro i hi
  simp [h (k + i) (by omega)]

@[simp] theorem elementNB_byteElement (b : Byte) : elementNB (byteElement b) = false := by
  simp [elementNB, byteElement]

@[simp] theorem elementByte_byteElement (b : Byte) : elementByte (byteElement b) = b := by
  ext i hi
  have h9 : i < 9 := by omega
  simp [elementByte, byteElement, hi, h9]

@[simp] theorem ofCode_code (st : Status) : Status.ofCode st.code = st := by cases st <;> rfl

@[simp] theorem code_ofCode (c : BitVec 2) : (Status.ofCode c).code = c := by
  revert c; decide

end Sys2Proof.Machine
end

