-- ==== Sys2Proof/Laws/State.lean ====
section
/-! SUPPORT. One lemma for each field of each shared update of State, so that no proof unfolds the update. -/

namespace Sys2Proof.Machine

@[simp] theorem hardReset_acc (s : State) : (hardReset s).acc = none := rfl
@[simp] theorem hardReset_cmdIn (s : State) : (hardReset s).cmdIn = s.cmdIn := rfl
@[simp] theorem hardReset_datIn (s : State) : (hardReset s).datIn = s.datIn := rfl
@[simp] theorem hardReset_rspOut (s : State) : (hardReset s).rspOut = s.rspOut := rfl

@[simp] theorem abandonCommand_acc (i : Instr) (n : Nat) (s : State) : (abandonCommand i n s).acc = none := rfl
@[simp] theorem abandonCommand_cmdIn (i : Instr) (n : Nat) (s : State) :
    (abandonCommand i n s).cmdIn = s.cmdIn := rfl
@[simp] theorem abandonCommand_datIn (i : Instr) (n : Nat) (s : State) :
    (abandonCommand i n s).datIn = s.datIn.drop (min n (elementsTaken s.acc i)) := rfl
@[simp] theorem abandonCommand_rspOut (i : Instr) (n : Nat) (s : State) :
    (abandonCommand i n s).rspOut = s.rspOut := rfl

@[simp] theorem present_acc (s : State) (ts : List Transaction) : (s.present ts).acc = s.acc := rfl
@[simp] theorem present_cmdIn (s : State) (ts : List Transaction) :
    (s.present ts).cmdIn = s.cmdIn ++ ts.map fun t => .command (encode t.instr) := rfl
@[simp] theorem present_datIn (s : State) (ts : List Transaction) :
    (s.present ts).datIn = s.datIn ++ ts.flatMap fun t => t.payload := rfl
@[simp] theorem present_rspOut (s : State) (ts : List Transaction) : (s.present ts).rspOut = s.rspOut := rfl

@[simp] theorem withFetchWord_acc (s : State) (n w : Nat) : (s.withFetchWord n w).acc = s.acc := rfl
@[simp] theorem withFetchWord_cmdIn (s : State) (n w : Nat) :
    (s.withFetchWord n w).cmdIn = .command (BitVec.ofNat 220 (w % 2 ^ n)) :: s.cmdIn := rfl
@[simp] theorem withFetchWord_rspOut (s : State) (n w : Nat) : (s.withFetchWord n w).rspOut = s.rspOut := rfl

@[simp] theorem reset_acc : State.reset.acc = none := rfl
@[simp] theorem reset_cmdIn : State.reset.cmdIn = [] := rfl
@[simp] theorem reset_datIn : State.reset.datIn = [] := rfl
@[simp] theorem reset_rspOut : State.reset.rspOut = [] := rfl

@[simp] theorem raise_fst (st : Status) (acc : Option Accumulator) : (raise st acc).1 = acc := rfl
@[simp] theorem raise_snd (st : Status) (acc : Option Accumulator) : (raise st acc).2 = ⟨st, 0⟩ := rfl
@[simp] theorem respond_fst (v : Word) (acc : Option Accumulator) : (respond v acc).1 = acc := rfl
@[simp] theorem respond_snd (v : Word) (acc : Option Accumulator) : (respond v acc).2 = ⟨.ok, v⟩ := rfl

@[simp] theorem requireValid_none (body : Accumulator → Result) :
    requireValid none body = raise .refused none := rfl
@[simp] theorem requireValid_some (a : Accumulator) (body : Accumulator → Result) :
    requireValid (some a) body = body a := rfl

@[simp] theorem elementsTaken_none (i : Instr) : elementsTaken none i = 0 := rfl
@[simp] theorem elementsTaken_some (a : Accumulator) (i : Instr) :
    elementsTaken (some a) i = i.payloadLength := rfl

end Sys2Proof.Machine
end

