-- ==== Sys2Proof/Laws/Commands.lean ====
section
/-! SUPPORT. What the data channel gives a command, and everything one command can do. -/

namespace Sys2Proof.Machine

/-! ### The data channel -/

theorem takePayload_append (payload rest : List Element) :
    takePayload payload.length (payload ++ rest) = some (payload, rest) := by
  induction payload with
  | nil => rfl
  | cons e payload ih => simp [takePayload, ih]

theorem takePayload_eq_some {count : Nat} {offered payload rest : List Element}
    (h : takePayload count offered = some (payload, rest)) : offered = payload ++ rest ∧ payload.length = count := by
  induction count generalizing offered payload with
  | zero =>
    simp only [takePayload, Option.some.injEq, Prod.mk.injEq] at h
    obtain ⟨rfl, rfl⟩ := h
    exact ⟨rfl, rfl⟩
  | succ count ih =>
    cases offered with
    | nil => simp [takePayload] at h
    | cons e offered =>
      simp only [takePayload] at h
      split at h
      · cases h
      · rename_i p r hp
        simp only [Option.some.injEq, Prod.mk.injEq] at h
        obtain ⟨rfl, rfl⟩ := h
        obtain ⟨rfl, hl⟩ := ih hp
        exact ⟨rfl, by simp [hl]⟩

theorem takePayload_eq_none {count : Nat} {offered : List Element} :
    takePayload count offered = none ↔ offered.length < count := by
  constructor
  · intro h
    by_contra hlt
    have := takePayload_append (offered.take count) (offered.drop count)
    rw [List.length_take_of_le (Nat.le_of_not_lt hlt), List.take_append_drop, h] at this
    cases this
  · intro h
    cases hp : takePayload count offered with
    | none => rfl
    | some pr =>
      obtain ⟨he, hl⟩ := takePayload_eq_some (payload := pr.1) (rest := pr.2) hp
      rw [he, List.length_append] at h
      omega

/-! ### One command -/

/-- What each command makes of the accumulator and its payload. -/
def result (i : Instr) (payload : List Element) (acc : Option Accumulator) : Result :=
  match i with
  | .config width poly init refin refout xorout => config width poly init refin refout xorout acc
  | .reset => reseed acc
  | .process _ => process payload acc
  | .checksum => checksum acc

/-- A command whose elements the host offers completes with its result: it takes its elements, writes the accumulator
and appends one response; the commands to come are untouched. -/
theorem exec_eq_complete {i : Instr} {s : State} {payload rest : List Element}
    (h : takePayload (elementsTaken s.acc i) s.datIn = some (payload, rest)) :
    exec i s = complete (result i payload s.acc) { s with datIn := rest } := by
  have keep : elementsTaken s.acc i = 0 → s = { s with datIn := rest } := by
    intro h0
    rw [h0] at h
    simp only [takePayload, Option.some.injEq, Prod.mk.injEq] at h
    rw [← h.2]
  cases i with
  | config width poly init refin refout xorout =>
    have := keep (by cases s.acc <;> rfl)
    conv => lhs; rw [this]
    rfl
  | reset =>
    have := keep (by cases s.acc <;> rfl)
    conv => lhs; rw [this]
    rfl
  | process len => simp only [exec, execProcess, h, result]
  | checksum =>
    have := keep (by cases s.acc <;> rfl)
    conv => lhs; rw [this]
    rfl

/-- Only a PROCESS whose payload the host does not deliver has no next state. -/
theorem exec_eq_fault {i : Instr} {s : State} (h : takePayload (elementsTaken s.acc i) s.datIn = none) :
    exec i s = .fault .payloadNotDelivered := by
  cases i with
  | process len => simp only [exec, execProcess, h]
  | config width poly init refin refout xorout =>
    have : elementsTaken s.acc (.config width poly init refin refout xorout) = 0 := by cases s.acc <;> rfl
    rw [this] at h; cases h
  | reset =>
    have : elementsTaken s.acc .reset = 0 := by cases s.acc <;> rfl
    rw [this] at h; cases h
  | checksum =>
    have : elementsTaken s.acc .checksum = 0 := by cases s.acc <;> rfl
    rw [this] at h; cases h

/-- A command that finds its payload at the head of the data channel. -/
theorem exec_of_payload {acc : Option Accumulator} {i : Instr} {payload : List Element}
    (h : payload.length = elementsTaken acc i) (cmdIn : List HostInput) (rest : List Element)
    (rspOut : List Response) :
    exec i ⟨acc, cmdIn, payload ++ rest, rspOut⟩ =
      .next ⟨(result i payload acc).1, cmdIn, rest, rspOut ++ [(result i payload acc).2]⟩ := by
  have : takePayload (elementsTaken acc i) (payload ++ rest) = some (payload, rest) :=
    h ▸ takePayload_append payload rest
  rw [exec_eq_complete (s := ⟨acc, cmdIn, payload ++ rest, rspOut⟩) this]
  rfl

/-- Everything one command can do when it answers. -/
theorem exec_next {i : Instr} {s t : State} (h : exec i s = .next t) :
    ∃ payload rest, s.datIn = payload ++ rest ∧ payload.length = elementsTaken s.acc i ∧
      t = ⟨(result i payload s.acc).1, s.cmdIn, rest, s.rspOut ++ [(result i payload s.acc).2]⟩ := by
  cases hp : takePayload (elementsTaken s.acc i) s.datIn with
  | none => rw [exec_eq_fault hp] at h; cases h
  | some pr =>
    obtain ⟨payload, rest⟩ := pr
    obtain ⟨hd, hl⟩ := takePayload_eq_some hp
    rw [exec_eq_complete hp] at h
    simp only [complete, Host.Outcome.next.injEq] at h
    exact ⟨payload, rest, hd, hl, h.symm⟩

/-- What one command leaves: nothing changes but by a legal CONFIG, a RESET or a PROCESS of well-formed bytes. -/
theorem result_cases (i : Instr) (payload : List Element) (acc : Option Accumulator) :
    (∃ width poly init refin refout xorout, i = .config width poly init refin refout xorout ∧ widthLegal width = true ∧
      result i payload acc = respond 0 (some (seeded (maskedCfg width poly init refin refout xorout)))) ∨
    (∃ a, i = .reset ∧ acc = some a ∧ result i payload acc = respond 0 (some { a with reg := a.cfg.init })) ∨
    (∃ a len, i = .process len ∧ acc = some a ∧ payload.any elementNB = false ∧
      result i payload acc =
        respond 0 (some { a with reg := foldBytes a.cfg a.table a.reg (payload.map elementByte) })) ∨
    (∃ a, i = .checksum ∧ acc = some a ∧ result i payload acc = respond (outFn a.cfg a.reg) (some a)) ∨
    (∃ width poly init refin refout xorout, i = .config width poly init refin refout xorout ∧ widthLegal width = false ∧
      result i payload acc = raise .invalidParameter acc) ∨
    (∃ a len, i = .process len ∧ acc = some a ∧ payload.any elementNB = true ∧
      result i payload acc = raise .invalidInput acc) ∨
    ((∀ width poly init refin refout xorout, i ≠ .config width poly init refin refout xorout) ∧ acc = none ∧
      result i payload acc = raise .refused acc) := by
  cases i with
  | config width poly init refin refout xorout =>
    cases hw : widthLegal width
    · simp [result, config, hw]
    · exact .inl ⟨_, _, _, _, _, _, rfl, hw, by simp [result, config, hw]⟩
  | reset => cases acc <;> simp [result, reseed]
  | process len =>
    cases acc with
    | none => simp [result, process]
    | some a => cases hb : payload.any elementNB <;> simp [result, process, hb]
  | checksum => cases acc <;> simp [result, checksum]

/-- The legal widths are 1..64 (R65, R91). -/
theorem widthLegal_iff (width : BitVec 8) : widthLegal width = true ↔ 1 ≤ width.toNat ∧ width.toNat ≤ 64 := by
  simp [widthLegal]

/-! ### Runs -/

theorem run_succ {n : Nat} {s t : State} (h : step s = .next t) : run (n + 1) s = run n t := by simp [run, h]

theorem run_add {n : Nat} {s t : State} (m : Nat) (h : run n s = .next t) : run (n + m) s = run m t := by
  induction n generalizing s with
  | zero =>
    simp only [run, Host.Outcome.next.injEq] at h
    rw [h, Nat.zero_add]
  | succ n ih =>
    rw [Nat.succ_add]
    simp only [run] at h ⊢
    cases hs : step s with
    | next u => rw [hs] at h; exact ih h
    | fault f => rw [hs] at h; cases h
    | refused f => rw [hs] at h; cases h

end Sys2Proof.Machine
end

