-- ==== Sys2Proof/Laws/Datapath.lean ====
section
/-! SUPPORT. The small lemmas of the datapath's definitions, so that no proof unfolds them, and what CONFIG's masked
configuration holds. -/

namespace Sys2Proof.Machine

@[simp] theorem foldBytes_nil (c : Cfg) (table : Memory) (r : Word) : foldBytes c table r [] = r := rfl

@[simp] theorem foldBytes_cons (c : Cfg) (table : Memory) (r : Word) (b : Byte) (bytes : List Byte) :
    foldBytes c table r (b :: bytes) = foldBytes c table (foldTable c table r b) bytes := rfl

/-- R124: `Fold*(R, B1 concat B2) = Fold*(Fold*(R, B1), B2)`. -/
@[simp] theorem foldBytes_append (c : Cfg) (table : Memory) (r : Word) (b1 b2 : List Byte) :
    foldBytes c table r (b1 ++ b2) = foldBytes c table (foldBytes c table r b1) b2 := by
  simp [foldBytes]

theorem stepBit_of_refin {c : Cfg} (h : c.refin = true) : stepBit c = stepLSB c := by
  funext r d
  simp [stepBit, h]

theorem stepBit_of_not_refin {c : Cfg} (h : c.refin = false) : stepBit c = stepMSB c := by
  funext r d
  simp [stepBit, h]

/-- R96 over the bits of the byte in the order they are consumed. -/
theorem foldBits_eq_foldl (c : Cfg) (r : Word) (b : Byte) :
    foldBits c r b = ((bitOrder c.refin).map fun k => b.getLsbD k).foldl (stepBit c) r := by
  rw [foldBits, List.foldl_map]

@[simp] theorem seeded_cfg (c : Cfg) : (seeded c).cfg = c := rfl
@[simp] theorem seeded_reg (c : Cfg) : (seeded c).reg = c.init := rfl
@[simp] theorem seeded_table (c : Cfg) : (seeded c).table = buildTable c := rfl

/-- `CFG.WIDTH` holds a legal `WIDTH` operand as it stands (R25, R65). -/
theorem maskedCfg_w {width : BitVec 8} (h : width.toNat ≤ 64) (poly init : Word) (refin refout : Bool)
    (xorout : Word) : (maskedCfg width poly init refin refout xorout).w = width.toNat := by
  simp only [Cfg.w, maskedCfg, BitVec.toNat_setWidth]
  omega

/-- A CONFIG of a legal width (R90). -/
theorem exec_config_legal {width : BitVec 8} (h : widthLegal width = true) (poly init : Word) (refin refout : Bool)
    (xorout : Word) (s : State) :
    exec (.config width poly init refin refout xorout) s =
      .next { s with
        acc := some (seeded (maskedCfg width poly init refin refout xorout))
        rspOut := s.rspOut ++ [⟨.ok, 0⟩] } := by
  simp [exec, execConfig, config, h, complete]

end Sys2Proof.Machine
end

