-- ==== Sys2Proof/Laws/Encoding.lean ====
section
/-! SUPPORT. One lemma per field of a packed command word: a field reads as what was put there. -/

namespace Sys2Proof

theorem packFields_op (op : BitVec 2) (refin refout : Bool) (width : BitVec 8) (len : Config.Length)
    (poly init xorout : Word) :
    (packFields op refin refout width len poly init xorout).op = op := by
  apply BitVec.eq_of_getLsbD_eq
  intro i hi
  simp only [CommandWord.op, packFields, BitVec.getLsbD_extractLsb', BitVec.getLsbD_append]
  simp [hi]

theorem packFields_refin (op : BitVec 2) (refin refout : Bool) (width : BitVec 8) (len : Config.Length)
    (poly init xorout : Word) :
    (packFields op refin refout width len poly init xorout).refin = refin := by
  simp only [CommandWord.refin, packFields, BitVec.getLsbD_append, BitVec.getLsbD_ofBool]
  simp

theorem packFields_refout (op : BitVec 2) (refin refout : Bool) (width : BitVec 8) (len : Config.Length)
    (poly init xorout : Word) :
    (packFields op refin refout width len poly init xorout).refout = refout := by
  simp only [CommandWord.refout, packFields, BitVec.getLsbD_append, BitVec.getLsbD_ofBool]
  simp

theorem packFields_width (op : BitVec 2) (refin refout : Bool) (width : BitVec 8) (len : Config.Length)
    (poly init xorout : Word) :
    (packFields op refin refout width len poly init xorout).width = width := by
  apply BitVec.eq_of_getLsbD_eq
  intro i hi
  simp only [CommandWord.width, packFields, BitVec.getLsbD_extractLsb', BitVec.getLsbD_append]
  simp only [
    show ¬(4 + i < 2) by omega, show ¬(4 + i - 2 < 1) by omega, show ¬(4 + i - 2 - 1 < 1) by omega, show 4 + i -
    2 - 1 - 1 = i by omega, if_false]
  simp [hi]

theorem packFields_len (op : BitVec 2) (refin refout : Bool) (width : BitVec 8) (len : Config.Length)
    (poly init xorout : Word) :
    (packFields op refin refout width len poly init xorout).len = len := by
  apply BitVec.eq_of_getLsbD_eq
  intro i hi
  simp only [CommandWord.len, packFields, BitVec.getLsbD_extractLsb', BitVec.getLsbD_append]
  simp only [
    show ¬(12 + i < 2) by omega, show ¬(12 + i - 2 < 1) by omega, show ¬(12 + i - 2 - 1 < 1) by omega, show ¬(12
    + i - 2 - 1 - 1 < 8) by omega, show 12 + i - 2 - 1 - 1 - 8 = i by omega, if_false]
  simp [hi]

theorem packFields_poly (op : BitVec 2) (refin refout : Bool) (width : BitVec 8) (len : Config.Length)
    (poly init xorout : Word) :
    (packFields op refin refout width len poly init xorout).poly = poly := by
  apply BitVec.eq_of_getLsbD_eq
  intro i hi
  simp only [CommandWord.poly, packFields, BitVec.getLsbD_extractLsb', BitVec.getLsbD_append]
  simp only [
    show ¬(28 + i < 2) by omega, show ¬(28 + i - 2 < 1) by omega, show ¬(28 + i - 2 - 1 < 1) by omega, show ¬(28
    + i - 2 - 1 - 1 < 8) by omega, show ¬(28 + i - 2 - 1 - 1 - 8 < 16) by omega, show 28 + i - 2 - 1 - 1 - 8 -
    16 = i by omega, if_false]
  simp [hi]

theorem packFields_init (op : BitVec 2) (refin refout : Bool) (width : BitVec 8) (len : Config.Length)
    (poly init xorout : Word) :
    (packFields op refin refout width len poly init xorout).init = init := by
  apply BitVec.eq_of_getLsbD_eq
  intro i hi
  simp only [CommandWord.init, packFields, BitVec.getLsbD_extractLsb', BitVec.getLsbD_append]
  simp only [
    show ¬(92 + i < 2) by omega, show ¬(92 + i - 2 < 1) by omega, show ¬(92 + i - 2 - 1 < 1) by omega, show ¬(92
    + i - 2 - 1 - 1 < 8) by omega, show ¬(92 + i - 2 - 1 - 1 - 8 < 16) by omega, show ¬(92 + i - 2 - 1 - 1 - 8 -
    16 < 64) by omega, show 92 + i - 2 - 1 - 1 - 8 - 16 - 64 = i by omega, if_false]
  simp [hi]

theorem packFields_xorout (op : BitVec 2) (refin refout : Bool) (width : BitVec 8) (len : Config.Length)
    (poly init xorout : Word) :
    (packFields op refin refout width len poly init xorout).xorout = xorout := by
  apply BitVec.eq_of_getLsbD_eq
  intro i hi
  simp only [CommandWord.xorout, packFields, BitVec.getLsbD_extractLsb', BitVec.getLsbD_append]
  simp only [
    show ¬(156 + i < 2) by omega, show ¬(156 + i - 2 < 1) by omega, show ¬(156 + i - 2 - 1 < 1) by omega, show
    ¬(156 + i - 2 - 1 - 1 < 8) by omega, show ¬(156 + i - 2 - 1 - 1 - 8 < 16) by omega, show ¬(156 + i - 2 - 1 -
    1 - 8 - 16 < 64) by omega, show ¬(156 + i - 2 - 1 - 1 - 8 - 16 - 64 < 64) by omega, show 156 + i - 2 - 1 - 1
    - 8 - 16 - 64 - 64 = i by omega, if_false]
  simp [hi]

end Sys2Proof
end

