-- ==== Sys2Proof/Laws/Memory.lean ====
section
/-! SUPPORT. The table index space: every operation over it keeps its canonical form, and reads see writes. -/

namespace Sys2Proof.Machine

/-- R42: a write keeps the 256 entries. -/
theorem memWrite_wf {m : Memory} (h : m.wf) (i : Byte) (w : Nat) (v : Word) : (memWrite m i w v).wf := by
  simpa [memWrite, Memory.wf] using h

theorem buildTable_wf (c : Cfg) : (buildTable c).wf := by simp [buildTable, Memory.wf]

/-- The invariant's table is in canonical form. -/
theorem Accumulator.Legal.memory_wf {a : Accumulator} (h : a.Legal) : a.table.wf := by
  rw [h.table_built]; exact buildTable_wf _

/-- The memory of the reset state is in canonical form: there is no table (R37). -/
theorem reset_memory_wf : ∀ a, State.reset.acc = some a → a.table.wf := fun _ h => nomatch h

/-- R42: an entry reads as the value written to it, through the mask. -/
theorem memRead_memWrite_same {m : Memory} (h : m.wf) (i : Byte) (w : Nat) (v : Word) :
    memRead (memWrite m i w v) i = v &&& mask w := by
  have hi : i.toNat < m.length := by rw [h]; exact i.isLt
  simp [memRead, memWrite, List.getD, hi]

/-- R42: a write leaves every other entry alone. -/
theorem memRead_memWrite_other (m : Memory) {i j : Byte} (hij : i ≠ j) (w : Nat) (v : Word) :
    memRead (memWrite m i w v) j = memRead m j := by
  have : i.toNat ≠ j.toNat := fun h => hij (BitVec.eq_of_toNat_eq h)
  simp [memRead, memWrite, List.getD, this]

/-- Entry i of the table CONFIG builds, as `MemWrite` stores it. -/
theorem memRead_buildTable (c : Cfg) (i : Byte) :
    memRead (buildTable c) i = foldBits c 0 i &&& mask c.w := by
  have hi : i.toNat < 256 := i.isLt
  simp [memRead, buildTable, List.getD, hi, Config.tableEntries]

/-- Two tables of 256 entries are equal when every entry reads the same. -/
theorem memory_ext {m n : Memory} (hm : m.wf) (hn : n.wf) (h : ∀ i, memRead m i = memRead n i) : m = n := by
  apply List.ext_getElem (by rw [hm, hn])
  intro k hk hk'
  have hk256 : k < 256 := by rw [hm] at hk; exact hk
  have := h (BitVec.ofNat 8 k)
  simpa [memRead, List.getD, hk256, hk, hk', Nat.mod_eq_of_lt hk256] using this

/-- CONFIG's loop of R90: `for i = 0 to n−1: MemWrite(i, W, FoldBits(0, i))`. -/
def writeEntries (c : Cfg) (m : Memory) : Nat → Memory
  | 0 => m
  | n + 1 => memWrite (writeEntries c m n) (BitVec.ofNat 8 n) c.w (foldBits c 0 (BitVec.ofNat 8 n))

theorem writeEntries_wf (c : Cfg) {m : Memory} (h : m.wf) (n : Nat) : (writeEntries c m n).wf := by
  induction n with
  | zero => exact h
  | succ n ih => exact memWrite_wf ih _ _ _

theorem memRead_writeEntries (c : Cfg) {m : Memory} (h : m.wf) (n : Nat) (hn : n ≤ 256) (i : Byte) :
    memRead (writeEntries c m n) i = if i.toNat < n then foldBits c 0 i &&& mask c.w else memRead m i := by
  induction n with
  | zero => simp [writeEntries]
  | succ n ih =>
    have hn' : n < 256 := hn
    by_cases hi : i = BitVec.ofNat 8 n
    · subst hi
      rw [writeEntries, memRead_memWrite_same (writeEntries_wf c h n)]
      simp [Nat.mod_eq_of_lt hn']
    · have hne : i.toNat ≠ n := by
        intro he
        apply hi
        apply BitVec.eq_of_toNat_eq
        simpa [Nat.mod_eq_of_lt hn'] using he
      rw [writeEntries, memRead_memWrite_other _ (Ne.symm hi), ih (by omega)]
      have : i.toNat < n + 1 ↔ i.toNat < n := by omega
      simp [this]

/-- Whatever table stood before, the loop of R90 leaves the table the model builds (R97, R101). -/
theorem writeEntries_eq_buildTable (c : Cfg) {m : Memory} (h : m.wf) : writeEntries c m 256 = buildTable c := by
  apply memory_ext (writeEntries_wf c h 256) (buildTable_wf c)
  intro i
  rw [memRead_writeEntries c h 256 (Nat.le_refl _), memRead_buildTable]
  simp [i.isLt]

end Sys2Proof.Machine
end

