-- ==== Sys2Proof/Laws/PerInstr.lean ====
section
/-! SUPPORT. Facts about every command as syntax, one lemma per constructor. -/

namespace Sys2Proof.Laws.OpcodeRow

/-- The `match` value of each row of the opcode table (R63). -/
def row : Instr → BitVec 2
  | .config _ _ _ _ _ _ => 0b00#2
  | .reset => 0b01#2
  | .process _ => 0b10#2
  | .checksum => 0b11#2

/-- A command's canonical word matches its own row of the opcode table: `CW AND 0x3 = match` (R63). -/
def Statement (i : Instr) : Prop := (encode i).op = row i

theorem config (width : BitVec 8) (poly init : Word) (refin refout : Bool) (xorout : Word) :
    Statement (.config width poly init refin refout xorout) := by
  simp [Statement, encode, row, packFields_op]

theorem reset : Statement .reset := by unfold Statement; decide

theorem process (len : Config.Length) : Statement (.process len) := by
  simp [Statement, encode, row, packFields_op]

theorem checksum : Statement .checksum := by unfold Statement; decide

end Sys2Proof.Laws.OpcodeRow
end

