-- ==== Sys2Proof/Laws/Wire.lean ====
section
/-! SUPPORT. The small lemmas of the edge-level machine. -/

namespace Sys2Proof.Machine

@[simp] theorem Wire.run_nil (wl : Wire × PortLog) : Wire.run [] wl = wl := rfl

@[simp] theorem Wire.run_cons (inp : EdgeIn) (later : List EdgeIn) (w : Wire) (log : PortLog) :
    Wire.run (inp :: later) (w, log) = Wire.run later (w.edge inp, log.edge inp w) := rfl

theorem Wire.run_append (first later : List EdgeIn) (wl : Wire × PortLog) :
    Wire.run (first ++ later) wl = Wire.run later (Wire.run first wl) := by
  induction first generalizing wl with
  | nil => rfl
  | cons inp first ih => exact ih _

/-- Edges of a kind that changes neither the block nor the record can be passed over. -/
theorem Wire.run_of_unchanged {kind : EdgeIn → Prop} {w : Wire} {log : PortLog}
    (h : ∀ inp, kind inp → w.edge inp = w ∧ log.edge inp w = log) (edges : List EdgeIn)
    (hk : ∀ inp ∈ edges, kind inp) : Wire.run edges (w, log) = (w, log) := by
  induction edges with
  | nil => rfl
  | cons inp later ih =>
    obtain ⟨hw, hl⟩ := h inp (hk inp (List.mem_cons_self ..))
    rw [Wire.run_cons, hw, hl]
    exact ih fun x hx => hk x (List.mem_cons_of_mem _ hx)

@[simp] theorem Schedule.payload_length (p : Schedule) : p.payload.length = p.elements.length := by
  simp [Schedule.payload]

/-- An executing command leaves what `exec` leaves, and holds its response (R61 steps 3 and 4). -/
theorem Wire.execute_eq {w : Wire} {cw : CommandWord} {payload : List Element}
    (h : payload.length = elementsTaken w.acc (decode cw)) :
    w.execute cw payload =
      ⟨(result (decode cw) payload w.acc).1, .responding cw payload (result (decode cw) payload w.acc).2⟩ := by
  have he := exec_of_payload h [] [] []
  rw [List.append_nil, List.nil_append] at he
  simp only [Wire.execute, he]

end Sys2Proof.Machine
end

