-- ==== Sys2Proof/Tests/Slice0.lean ====
section
/-! SUPPORT. Tests. Every expected result is copied from the spec (95_test_vectors.md, 30_encoding.md R78 and the worked
examples of the rules), never from the model. After them, for each obligation with hypotheses, a state and operands that
meet them, one for each clause. -/

namespace Sys2Proof.Tests

open Sys2Proof.Machine

/-! ### The smoke tests of well-formedness -/

theorem test_wf_process_too_few : Transaction.wf ⟨.process 2#16, [0x031#9]⟩ = false := by decide
theorem test_wf_process_too_many : Transaction.wf ⟨.process 1#16, [0x031#9, 0x032#9]⟩ = false := by decide
theorem test_wf_config_with_payload :
    Transaction.wf ⟨.config 16#8 0x8005#64 0#64 true false 0#64, [0x031#9]⟩ = false := by decide
theorem test_wf_reset_with_payload : Transaction.wf ⟨.reset, [0x031#9]⟩ = false := by decide
theorem test_wf_checksum_with_payload : Transaction.wf ⟨.checksum, [0x031#9]⟩ = false := by decide
theorem test_wf_process : Transaction.wf ⟨.process 2#16, [0x031#9, 0x100#9]⟩ = true := by decide
theorem test_wf_element_not_a_byte : LineElement.wf (.byte 0x100) = false := by decide
theorem test_wf_line_element : Line.wf (.process [.byte 0x31, .byte 0x100]) = false := by decide
theorem test_wf_width : ConfigLine.wf { width := 256, poly := 0 } = false := by decide
theorem test_wf_poly : ConfigLine.wf { width := 16, poly := 2 ^ 64 } = false := by decide
theorem test_wf_init : ConfigLine.wf { width := 16, poly := 1, init := 2 ^ 64 } = false := by decide
theorem test_wf_xorout : Line.wf (.config { width := 16, poly := 1, xorout := 2 ^ 64 }) = false := by decide
theorem test_wf_failing_width_is_well_formed : Line.wf (.config { width := 65, poly := 0x8005 }) = true := by decide

/-! ### Decoding, from words written out by R62 -/

/-- Each field of R62 at its weight: XOROUT 2^156, INIT 2^92, POLY 2^28, WIDTH 2^4, REFOUT 2^3, REFIN 2^2, OP 2^0. -/
theorem test_decode_config_fields :
    decode (BitVec.ofNat 220 (0x12345 * 2 ^ 156 + 0xABCD * 2 ^ 92 + 0x80F * 2 ^ 28 + 12 * 2 ^ 4 + 1 * 2 ^ 3 + 0)) =
      .config 12#8 0x80F#64 0xABCD#64 false true 0x12345#64 := by decide

/-- V4's word. -/
theorem test_decode_config_v4 :
    decode 0x0000000000012345000000000000ABCD00000000FFFFF80F00000C0#220 =
      .config 12#8 0xFFFFF80F#64 0xABCD#64 false false 0x12345#64 := by decide

/-- P4's word: 64 bits, every numeric operand with its top bit. -/
theorem test_decode_config_p4 :
    decode 0xFFFFFFFFFFFFFFFFFFFFFFFFFFFFFFFF42F0E1EBA9EA36930000404#220 =
      .config 64#8 0x42F0E1EBA9EA3693#64 0xFFFFFFFFFFFFFFFF#64 true false 0xFFFFFFFFFFFFFFFF#64 := by decide

/-- OP = 01 with every other field set (R64). -/
theorem test_decode_reset : decode 1#220 = .reset ∧ decode (BitVec.ofNat 220 (2 ^ 220 - 3)) = .reset := by decide

/-- LEN is bits 27:12 (R62); P1's and R78's words. -/
theorem test_decode_process :
    decode (BitVec.ofNat 220 (0xFFFF * 2 ^ 12 + 2)) = .process 65535#16 ∧
    decode 0x0000000000000000000000000000000000000000000000000005002#220 = .process 5#16 := by decide

theorem test_decode_checksum : decode 3#220 = .checksum := by decide

/-- The encoder writes R78's words. -/
theorem test_encode :
    encode (.config 32#8 0x04C11DB7#64 0xFFFFFFFF#64 true false 0xFFFFFFFF#64) =
      0x00000000FFFFFFFF00000000FFFFFFFF0000000004C11DB70000204#220 ∧
    encode (.process 9#16) = 0x0000000000000000000000000000000000000000000000000009002#220 := by decide

theorem test_decodeTableWord :
    decodeTableWord 224 0 = some (.config 0#8 0#64 0#64 false false 0#64) ∧ decodeTableWord 224 1 = some .reset ∧
    decodeTableWord 224 2 = some (.process 0#16) ∧ decodeTableWord 224 3 = some .checksum := by decide

theorem test_decodeBytes_rejects_length : decodeBytes [0x03#8] = .error .wrongLength := by decide
theorem test_decodeBytes_rejects_pad :
    decodeBytes (List.replicate 27 0x03#8 ++ [0x10#8]) = .error .padBitsSet := by decide

/-- R69: the response words of R78. -/
theorem test_response_words :
    Response.word ⟨.ok, 0xBB3D#64⟩ = 0x2ECF4#66 ∧ Response.ofWord 0x3#66 = ⟨.refused, 0⟩ := by decide

/-! ### Small states -/

/-- CRC-16/ARC as this block is configured for it (S2, V24). -/
def arc : Cfg := ⟨16#7, 0x8005#64, 0#64, true, false, 0#64⟩

/-- V20. -/
def xmodem : Cfg := ⟨16#7, 0x1021#64, 0#64, false, false, 0#64⟩

/-- V23, one byte wide. -/
def smbus : Cfg := ⟨8#7, 0x07#64, 0#64, false, false, 0#64⟩

/-- V28, one bit less than a byte. -/
def mmc : Cfg := ⟨7#7, 0x09#64, 0#64, false, false, 0#64⟩

/-- V27, the 3-bit one. -/
def gsm3 : Cfg := ⟨3#7, 0x3#64, 0#64, false, false, 0x7#64⟩

/-- V1, one bit wide. -/
def parity (refin : Bool) : Cfg := ⟨1#7, 1#64, 0#64, refin, false, 0#64⟩

/-- V31 and V32, 64 bits wide. -/
def wide (refin : Bool) : Cfg := ⟨64#7, 0x42F0E1EBA9EA3693#64, 0#64, refin, false, 0#64⟩

/-- A block with this register, commands and elements before it. -/
def block (c : Cfg) (reg : Word) (cmdIn : List HostInput) (datIn : List Element) : State :=
  ⟨some { seeded c with reg := reg }, cmdIn, datIn, []⟩

/-- An unconfigured block. -/
def unconfigured (cmdIn : List HostInput) (datIn : List Element) : State := ⟨none, cmdIn, datIn, []⟩

/-- The next state's accumulator meets this test. -/
def after (o : Host.Outcome State Fault Refusal) (p : State → Bool) : Bool :=
  match o with
  | .next t => p t
  | .fault _ => false
  | .refused _ => false

/-- The next state holds an accumulator with this register and has given this response. -/
def leaves (o : Host.Outcome State Fault Refusal) (reg : Word) (r : Response) : Bool :=
  after o fun t => t.acc.map (·.reg) == some reg && t.rspOut == [r]

/-- The edges of a host and a block that lose no time (R185, R187). -/
def prompt (cw : CommandWord) (payload : List Element) : Schedule where
  idle := []
  accept := { EdgeIn.quiet with cmdValid := true, cmd := cw }
  elements := payload.map fun e => ([], { EdgeIn.quiet with datValid := true, datElem := e })
  executing := []
  finish := { EdgeIn.quiet with finish := true }
  waiting := []
  take := { EdgeIn.quiet with rspReady := true }

/-- A PROCESS of one element with a pause everywhere. -/
def slow : Schedule where
  idle := [EdgeIn.quiet]
  accept := { EdgeIn.quiet with cmdValid := true, cmd := 0x1002#220 }
  elements := [([EdgeIn.quiet], { EdgeIn.quiet with datValid := true, datElem := 0x031#9 })]
  executing := [EdgeIn.quiet]
  finish := { EdgeIn.quiet with finish := true }
  waiting := [EdgeIn.quiet]
  take := { EdgeIn.quiet with rspReady := true }

/-! ### CONFIG -/

/-- V4: the operands are masked, the seed is loaded. -/
theorem test_config_masks :
    after (exec (.config 12#8 0xFFFFF80F#64 0xABCD#64 false false 0x12345#64) State.reset) (fun t =>
      t.acc.map (·.cfg) == some ⟨12#7, 0x80F#64, 0xBCD#64, false, false, 0x345#64⟩ &&
      t.acc.map (·.reg) == some 0xBCD#64) = true := by decide

/-- V3, V5: the widths beside the legal ones are rejected and spare the old accumulator. -/
theorem test_config_rejects :
    ([0#8, 65#8, 128#8, 255#8].all fun w =>
      leaves (exec (.config w 0x1021#64 0#64 false false 0#64) (block arc 0xBB3D#64 [] [])) 0xBB3D#64
        ⟨.invalidParameter, 0⟩) = true := by decide

/-- V7: (15, 0x4599, REFIN = 0). -/
theorem test_table_15 :
    memRead (buildTable ⟨15#7, 0x4599#64, 0#64, false, false, 0#64⟩) 0x01#8 = 0x4599#64 ∧
    memRead (buildTable ⟨15#7, 0x4599#64, 0#64, false, false, 0#64⟩) 0x80#8 = 0x2213#64 := by decide

/-! ### RESET -/

/-- V10: the seed is not reversed when REFIN = 1. -/
theorem test_reset_seed :
    leaves (exec .reset (block ⟨16#7, 0x1021#64, 0x554D#64, true, false, 0#64⟩ 0x1234#64 [] [])) 0x554D#64 ⟨.ok, 0⟩ =
      true := by decide

/-- V11. -/
theorem test_reset_refused :
    after (exec .reset (unconfigured [] [])) (fun t => t.acc.isNone && t.rspOut == [⟨.refused, 0⟩]) = true := by decide

/-! ### PROCESS -/

/-- V14: (16, 0x1021, 0xFFFF), byte 0x00. -/
theorem test_process_byte :
    leaves (exec (.process 1#16) (block xmodem 0xFFFF#64 [] [0x000#9])) 0xE1F0#64 ⟨.ok, 0⟩ = true := by decide

/-- V40: an element that is no byte fails the whole payload; all four are consumed. -/
theorem test_process_invalid :
    after (exec (.process 4#16) (block arc 0xA455#64 [] [0x036#9, 0x037#9, 0x100#9, 0x039#9, 0x055#9])) (fun t =>
      t.acc.map (·.reg) == some 0xA455#64 && t.datIn == [0x055#9] && t.rspOut == [⟨.invalidInput, 0⟩]) = true := by
  decide

/-- V12: width 3, R = 0x5, byte 0x31; the index and the entry of the table form. -/
theorem test_fold_narrow :
    tableIndex gsm3 0x5#64 0x31#8 = 0x91#8 ∧ foldTable gsm3 (buildTable gsm3) 0x5#64 0x31#8 = 0x1#64 ∧
    foldBits gsm3 0x5#64 0x31#8 = 0x1#64 := by decide

/-- V31's first two bytes: 64 bits, the top byte is dropped by the mask. -/
theorem test_fold_wide :
    foldBytes (wide false) (buildTable (wide false)) 0 [0x31#8, 0x32#8] = 0xEA2D7B6F8056C695#64 := by decide

/-! ### CHECKSUM -/

/-- R144's two examples: reflection first, XOR second. -/
theorem test_checksum_order :
    leaves (exec .checksum (block ⟨16#7, 0x1021#64, 0x1D0F#64, false, true, 0x00FF#64⟩ 0x1D0F#64 [] [])) 0x1D0F#64
      ⟨.ok, 0xF047#64⟩ = true ∧
    leaves (exec .checksum (block ⟨16#7, 0x1021#64, 0x1D0F#64, false, false, 0x00FF#64⟩ 0x1D0F#64 [] [])) 0x1D0F#64
      ⟨.ok, 0x1DF0#64⟩ = true := by decide

/-- V25: the register of CRC-32 gives the published check value. -/
theorem test_checksum_crc32 :
    leaves (exec .checksum
      (block ⟨32#7, 0x04C11DB7#64, 0xFFFFFFFF#64, true, false, 0xFFFFFFFF#64⟩ 0x340BC6D9#64 [] [])) 0x340BC6D9#64
      ⟨.ok, 0xCBF43926#64⟩ = true := by decide

/-! ### The step and the ports -/

/-- The next step after `withFetchWord` runs the command, right after reset. -/
theorem test_withFetchWord :
    after (step (State.reset.withFetchWord 224 0)) (fun t => t.rspOut == [⟨.invalidParameter, 0⟩]) = true ∧
    after (step (State.reset.withFetchWord 224 1)) (fun t => t.rspOut == [⟨.refused, 0⟩]) = true ∧
    after (step (State.reset.withFetchWord 224 0x2002)) (fun t => t.rspOut == [⟨.refused, 0⟩]) = true ∧
    after (step (State.reset.withFetchWord 224 3)) (fun t => t.rspOut == [⟨.refused, 0⟩]) = true := by decide

/-- `withFetchWord` gives a PROCESS its elements. -/
theorem test_withFetchWord_process :
    leaves (step ((block arc 0#64 [] []).withFetchWord 224 0x2002)) 0#64 ⟨.ok, 0⟩ = true := by decide

/-- R180: `rst` clears `VALID`; R181: in mid-command the elements already transferred are lost. -/
theorem test_hardware_reset :
    after (step (block arc 0xBB3D#64 [.rst] [0x031#9])) (fun t => t.acc.isNone && t.datIn == [0x031#9]) = true ∧
    after (step (block arc 0xBB3D#64 [.rstDuring 0x3002#220 2] [0x031#9, 0x032#9, 0x033#9])) (fun t =>
      t.acc.isNone && t.datIn == [0x033#9] && t.rspOut == []) = true := by decide

/-- R61: at the ports a refused PROCESS takes no element and is answered. -/
theorem test_ports_refused_process :
    (Wire.run [{ EdgeIn.quiet with cmdValid := true, cmd := 0x1002#220 }, { EdgeIn.quiet with finish := true }]
      (Wire.reset, PortLog.empty)).1.phase = .responding 0x1002#220 [] ⟨.refused, 0⟩ := by decide

/-! ### Witnesses: each obligation's hypotheses can be met -/

theorem arc_legal : arc.Legal := by constructor <;> decide
theorem xmodem_legal : xmodem.Legal := by constructor <;> decide
theorem smbus_legal : smbus.Legal := by constructor <;> decide
theorem mmc_legal : mmc.Legal := by constructor <;> decide
theorem gsm3_legal : gsm3.Legal := by constructor <;> decide
theorem parity_legal (refin : Bool) : (parity refin).Legal := by cases refin <;> constructor <;> decide
theorem wide_legal (refin : Bool) : (wide refin).Legal := by cases refin <;> constructor <;> decide

theorem block_legal {c : Cfg} {reg : Word} (h : c.Legal) (hr : fits c.w reg) :
    ({ seeded c with reg := reg } : Accumulator).Legal :=
  ⟨h, hr, rfl⟩

theorem block_inv {c : Cfg} {reg : Word} (h : c.Legal) (hr : fits c.w reg) (cmdIn : List HostInput)
    (datIn : List Element) : (block c reg cmdIn datIn).Inv := by
  intro a ha
  cases ha
  exact block_legal h hr

theorem test_witness_BitReversal :
    fits 1 1#64 ∧ fits 64 (BitVec.allOnes 64) ∧ fits 16 0x8005#64 := by decide

/-- One command of each kind, and `rst`, from states that meet the invariant. -/
theorem test_witness_EveryStepKeepsTheInvariant :
    ((unconfigured [.command 0x80050000104#220] []).Inv ∧
      ∃ t, step (unconfigured [.command 0x80050000104#220] []) = .next t) ∧
    (block arc 1#64 [.command 1#220] []).Inv ∧ (∃ t, step (block arc 1#64 [.command 1#220] []) = .next t) ∧
    (block gsm3 7#64 [.command 0x1002#220] [0x031#9]).Inv ∧
    (∃ t, step (block gsm3 7#64 [.command 0x1002#220] [0x031#9]) = .next t) ∧
    (block (wide true) (BitVec.allOnes 64) [.rst] []).Inv ∧
    (∃ t, step (block (wide true) (BitVec.allOnes 64) [.rst] []) = .next t) :=
  ⟨⟨(fun _ h => nomatch h), _, rfl⟩, block_inv arc_legal (by decide) _ _, ⟨_, rfl⟩, block_inv gsm3_legal (by decide) _ _,
    ⟨_, rfl⟩, block_inv (wide_legal true) (by decide) _ _, ⟨_, rfl⟩⟩

/-- `VALID` goes up by a CONFIG of width 1 and of width 64, and down by `rst` between and during commands. -/
theorem test_witness_ValidChangesOnlyByConfigAndHardwareReset :
    (∃ t, step (unconfigured [.command 0x10#220] []) = .next t ∧ t.valid = true) ∧
    (∃ t, step (unconfigured [.command 0x400#220] []) = .next t ∧ t.valid = true) ∧
    (∃ t, step (block arc 0#64 [.rst] []) = .next t ∧ t.valid = false) ∧
    (∃ t, step (block arc 0#64 [.rstDuring 3#220 0] []) = .next t ∧ t.valid = false) :=
  ⟨⟨_, rfl, rfl⟩, ⟨_, rfl, rfl⟩, ⟨_, rfl, rfl⟩, ⟨_, rfl, rfl⟩⟩

theorem test_witness_OnlyConfigWritesParametersAndTable :
    (∃ t, exec (.config 64#8 1#64 0#64 false false 0#64) (block arc 0#64 [] []) = .next t) ∧
    (∃ t, exec (.config 65#8 1#64 0#64 false false 0#64) (block arc 0#64 [] []) = .next t) ∧
    (∃ t, exec (.process 1#16) (block arc 0#64 [] [0x100#9]) = .next t) ∧
    (∃ t, exec .reset (unconfigured [] []) = .next t) :=
  ⟨⟨_, rfl⟩, ⟨_, rfl⟩, ⟨_, rfl⟩, ⟨_, rfl⟩⟩

/-- Two accumulators with the same width, polynomial and input reflection, all else different. -/
theorem test_witness_TableDependsOnThreeParameters :
    (seeded arc).Legal ∧
    ({ seeded { arc with init := 1#64, refout := true, xorout := 0xFFFF#64 } with reg := 0x8000#64 } : Accumulator).Legal ∧
    (seeded arc).cfg ≠ { arc with init := 1#64, refout := true, xorout := 0xFFFF#64 } :=
  ⟨⟨arc_legal, by decide, rfl⟩, ⟨by constructor <;> decide, by decide, rfl⟩, by decide⟩

theorem test_witness_FrameOfRegisterCommands :
    (∃ t, exec .reset (block arc 5#64 [.rst] [0x031#9]) = .next t) ∧
    (∃ t, exec (.process 0#16) (block arc 5#64 [.rst] []) = .next t) ∧
    (∃ t, exec (.process 2#16) (block arc 5#64 [.rst] [0x031#9, 0x100#9, 0x032#9]) = .next t) ∧
    (∃ t, exec .checksum (block arc 5#64 [.rst] [0x031#9]) = .next t) :=
  ⟨⟨_, rfl⟩, ⟨_, rfl⟩, ⟨_, rfl⟩, ⟨_, rfl⟩⟩

theorem test_witness_OutputParametersReachOnlyTheChecksum :
    (∃ t, exec .reset (block arc 5#64 [] []) = .next t) ∧
    (∃ t, exec (.process 1#16) (block arc 5#64 [] [0x031#9]) = .next t) ∧
    (∃ t, exec (.process 1#16) (unconfigured [] []) = .next t) :=
  ⟨⟨_, rfl⟩, ⟨_, rfl⟩, ⟨_, rfl⟩⟩

theorem test_witness_TableReadsAndWrites :
    (buildTable arc).wf ∧ (0xFF#8 : Byte) ≠ 0#8 ∧ (seeded (wide false)).Legal :=
  ⟨buildTable_wf arc, by decide, wide_legal false, by decide, rfl⟩

theorem test_witness_ResponseWordCarriesStatusAndValue :
    ∃ t, exec .checksum (block arc 0xBB3D#64 [] []) = .next t := ⟨_, rfl⟩

/-- An empty line's elements, and a line of two. -/
theorem test_witness_LongPayloadSplitsIntoCommands :
    (block arc 0#64 [] []).acc = some { seeded arc with reg := 0#64 } ∧ (block arc 0#64 [] []).cmdIn = [] ∧
    (block arc 0#64 [] []).datIn = [] ∧ (∀ e ∈ ([] : List Element), elementNB e = false) ∧
    (∀ e ∈ List.replicate 65536 (0x031#9 : Element), elementNB e = false) :=
  ⟨rfl, rfl, rfl, by decide, fun e he => by rw [List.eq_of_mem_replicate he]; decide⟩

/-- A line of two elements, the second no byte. -/
theorem test_witness_LongPayloadAnswersPieceByPiece :
    (block arc 5#64 [] []).acc = some { seeded arc with reg := 5#64 } ∧ (block arc 5#64 [] []).cmdIn = [] ∧
    (block arc 5#64 [] []).datIn = [] ∧
    (assembleProcess [0x031#9, 0x100#9]).map (fun t => t.payload) = [[0x031#9, 0x100#9]] :=
  ⟨rfl, rfl, rfl, by decide⟩

theorem test_witness_StepRunsTheDecodedCommand :
    (unconfigured [.command (BitVec.allOnes 220), .rst] []).cmdIn = .command (BitVec.allOnes 220) :: [.rst] := rfl

theorem test_witness_IdleBlockHoldsItsState : (block arc 0xBB3D#64 [] [0x031#9]).cmdIn = [] := rfl

/-- Widths 1, 3, 16 and 64, both conventions where the clauses split on it. -/
theorem test_witness_SingleBitSteps :
    arc.Legal ∧ fits arc.w 0xFFFF#64 ∧ (parity true).Legal ∧ fits (parity true).w 1#64 ∧ (wide false).Legal ∧
    fits (wide false).w (BitVec.allOnes 64) :=
  ⟨arc_legal, by decide, parity_legal true, by decide, wide_legal false, by decide⟩

theorem test_witness_ReflectedPolynomial : (parity false).Legal ∧ (wide false).Legal := ⟨parity_legal _, wide_legal _⟩

theorem test_witness_FoldBitsConsumesTheByteInOrder :
    (arc.Legal ∧ fits arc.w 0xFFFF#64 ∧ arc.refin = true) ∧ (gsm3.Legal ∧ fits gsm3.w 7#64 ∧ gsm3.refin = false) :=
  ⟨⟨arc_legal, by decide, rfl⟩, gsm3_legal, by decide, rfl⟩

/-- The boundary widths of both clauses of R91: 1 and 64, 0, 65 and 255. -/
theorem test_witness_ConfigConstructsTheAccumulator :
    (1 ≤ (1#8).toNat ∧ (1#8).toNat ≤ 64) ∧ (1 ≤ (64#8).toNat ∧ (64#8).toNat ≤ 64) ∧ (0#8).toNat = 0 ∧
    65 ≤ (65#8).toNat ∧ 65 ≤ (255#8).toNat := by decide

theorem test_witness_ConfigMasksItsOperands :
    (1 ≤ (1#8).toNat ∧ (1#8).toNat ≤ 64) ∧ (64#8).toNat = 64 := by decide

theorem test_witness_ConfigSeedsTheRegister : 1 ≤ (1#8).toNat ∧ (1#8).toNat ≤ 64 ∧ (64#8).toNat ≤ 64 := by decide

/-- Reflected at widths 1 and 64; not reflected at widths 8 and 64. -/
theorem test_witness_UsualTableGenerators :
    ((parity true).Legal ∧ (parity true).refin = true) ∧ ((wide true).Legal ∧ (wide true).refin = true) ∧
    (smbus.Legal ∧ smbus.refin = false ∧ 8 ≤ smbus.w) ∧
    ((wide false).Legal ∧ (wide false).refin = false ∧ 8 ≤ (wide false).w) :=
  ⟨⟨parity_legal _, rfl⟩, ⟨wide_legal _, rfl⟩, ⟨smbus_legal, rfl, by decide⟩, wide_legal _, rfl, by decide⟩

theorem test_witness_TableProperties :
    (xmodem.Legal ∧ xmodem.refin = false) ∧ (arc.Legal ∧ arc.refin = true) ∧
    (({ arc with poly := 0#64 } : Cfg).Legal ∧ ({ arc with poly := 0#64 } : Cfg).poly = 0) ∧
    ((parity false).Legal ∧ (parity false).w = 1 ∧ (parity false).poly = 1) :=
  ⟨⟨xmodem_legal, rfl⟩, ⟨arc_legal, rfl⟩, ⟨by constructor <;> decide, rfl⟩, parity_legal _, rfl, rfl⟩

theorem test_witness_ResetReseedsTheRegister :
    (block arc 0xBB3D#64 [] []).acc = some { seeded arc with reg := 0xBB3D#64 } ∧ (unconfigured [] []).acc = none :=
  ⟨rfl, rfl⟩

/-- A PROCESS, a CONFIG of width 65 that fails, and a CHECKSUM between the CONFIG and the RESET. -/
theorem test_witness_ResetErasesTheHistory :
    let s := block arc 0#64 [.command 0x1002#220, .command 0x410#220, .command 3#220] [0x031#9]
    s.acc = some (seeded arc) ∧
    (∀ h ∈ s.cmdIn.take 3, ∃ cw, h = .command cw ∧ (cw.op ≠ 0b00#2 ∨ cw.width.toNat = 0 ∨ 65 ≤ cw.width.toNat)) ∧
    ∃ t, run 3 s = .next t := by
  refine ⟨rfl, ?_, _, rfl⟩
  intro h hh
  simp [block] at hh
  rcases hh with rfl | rfl | rfl
  · exact ⟨_, rfl, by decide⟩
  · exact ⟨_, rfl, by decide⟩
  · exact ⟨_, rfl, by decide⟩

/-- Refused; a payload of bytes; a payload whose last element is no byte (V41); the empty payload. -/
theorem test_witness_ProcessFoldsItsPayload :
    (unconfigured [] [0x100#9]).acc = none ∧
    ((block arc 0#64 [] [0x031#9, 0x055#9]).acc = some { seeded arc with reg := 0#64 } ∧
      (block arc 0#64 [] [0x031#9, 0x055#9]).datIn = [0x031#9] ++ [0x055#9] ∧
      [(0x031#9 : Element)].length = (1#16).toNat ∧ ∀ e ∈ [(0x031#9 : Element)], elementNB e = false) ∧
    ((block arc 0#64 [] [0x031#9, 0x1FF#9]).acc = some { seeded arc with reg := 0#64 } ∧
      (block arc 0#64 [] [0x031#9, 0x1FF#9]).datIn = [0x031#9, 0x1FF#9] ++ [] ∧
      [(0x031#9 : Element), 0x1FF#9].length = (2#16).toNat ∧ ∃ e ∈ [(0x031#9 : Element), 0x1FF#9], elementNB e = true) ∧
    ((block arc 0#64 [] []).acc = some { seeded arc with reg := 0#64 } ∧ (block arc 0#64 [] []).datIn = [] ++ [] ∧
      ([] : List Element).length = (0#16).toNat ∧ ∀ e ∈ ([] : List Element), elementNB e = false) :=
  ⟨rfl, ⟨rfl, rfl, by decide, by decide⟩, ⟨rfl, rfl, by decide, by decide⟩, rfl, rfl, by decide, by decide⟩

theorem test_witness_EmptyPayloadIsANoOp :
    (block arc 0xBB3D#64 [] [0x031#9]).acc = some { seeded arc with reg := 0xBB3D#64 } ∧
    1 ≤ (8#8).toNat ∧ (8#8).toNat ≤ 64 := ⟨rfl, by decide, by decide⟩

/-- Reflected; not reflected at widths 8 and 64; not reflected at widths 7 and 1. -/
theorem test_witness_FoldTableFormula :
    (arc.Legal ∧ fits arc.w 0xFFFF#64 ∧ arc.refin = true) ∧
    (smbus.Legal ∧ fits smbus.w 0xFF#64 ∧ smbus.refin = false ∧ 8 ≤ smbus.w) ∧
    ((wide false).Legal ∧ fits (wide false).w (BitVec.allOnes 64) ∧ (wide false).refin = false ∧ 8 ≤ (wide false).w) ∧
    (mmc.Legal ∧ fits mmc.w 0x7F#64 ∧ mmc.refin = false ∧ mmc.w < 8) ∧
    ((parity false).Legal ∧ fits (parity false).w 1#64 ∧ (parity false).refin = false ∧ (parity false).w < 8) :=
  ⟨⟨arc_legal, by decide, rfl⟩, ⟨smbus_legal, by decide, rfl, by decide⟩, ⟨wide_legal _, by decide, rfl, by decide⟩,
    ⟨mmc_legal, by decide, rfl, by decide⟩, parity_legal _, by decide, rfl, by decide⟩

/-- For the statements about one fold (R122, R123), linearity (R126) and the corner cases. -/
theorem test_witness_TableFoldEqualsBitSerialFold :
    (parity true).Legal ∧ fits (parity true).w 1#64 ∧ (wide false).Legal ∧ fits (wide false).w (BitVec.allOnes 64) :=
  ⟨parity_legal _, by decide, wide_legal _, by decide⟩

theorem test_witness_FoldKeepsTheWidth : (wide true).Legal ∧ fits (wide true).w (BitVec.allOnes 64) :=
  ⟨wide_legal _, by decide⟩

theorem test_witness_FoldIsLinear : gsm3.Legal ∧ fits gsm3.w 7#64 ∧ fits gsm3.w 0#64 := ⟨gsm3_legal, by decide, by decide⟩

/-- Two bytes and one; and the largest total of the premise. -/
theorem test_witness_SplittingAMessageChangesNothing :
    ((block arc 0#64 [] [0x031#9, 0x032#9, 0x033#9]).acc = some { seeded arc with reg := 0#64 } ∧
      [(0x031#9 : Element), 0x032#9].length = (2#16).toNat ∧ [(0x033#9 : Element)].length = (1#16).toNat ∧
      (2#16).toNat + (1#16).toNat ≤ 65535 ∧
      (block arc 0#64 [] [0x031#9, 0x032#9, 0x033#9]).datIn = [0x031#9, 0x032#9] ++ [0x033#9] ++ [] ∧
      ∀ e ∈ [(0x031#9 : Element), 0x032#9] ++ [0x033#9], elementNB e = false) ∧
    ((List.replicate 65535 (0x031#9 : Element)).length = (65535#16).toNat ∧ (65535#16).toNat + (0#16).toNat ≤ 65535 ∧
      ∀ e ∈ List.replicate 65535 (0x031#9 : Element) ++ [], elementNB e = false) :=
  ⟨⟨rfl, by decide, by decide, by decide, rfl, by decide⟩, by rw [List.length_replicate]; rfl, by decide, fun e he => by
    rw [List.append_nil] at he; rw [List.eq_of_mem_replicate he]; decide⟩

theorem test_witness_RegisterIsTheRemainder :
    (xmodem.Legal ∧ xmodem.refin = false) ∧ (arc.Legal ∧ arc.refin = true) := ⟨⟨xmodem_legal, rfl⟩, arc_legal, rfl⟩

theorem test_witness_FoldCornerCases :
    (({ arc with poly := 0#64 } : Cfg).Legal ∧ fits 16 0xFFFF#64 ∧ arc.w ≤ 8 * [0xAB#8, 0xAB#8].length) ∧
    tableIndex arc 0x31#64 0x31#8 = 0 ∧
    (({ arc with width := 8#7, poly := 0x05#64 } : Cfg).Legal ∧ ({ arc with width := 8#7 } : Cfg).w = 8) ∧
    ((parity true).Legal ∧ fits (parity true).w 1#64 ∧ (parity true).w = 1 ∧ (parity true).poly = 1) :=
  ⟨⟨by constructor <;> decide, by decide, by decide⟩, by decide, ⟨by constructor <;> decide, by decide⟩, parity_legal _,
    by decide, rfl, rfl⟩

/-- A legal accumulator, none, and the register of R140's example. -/
theorem test_witness_ChecksumAnswersTheOutput :
    ({ seeded arc with reg := 0xBB3D#64 } : Accumulator).Legal ∧ (unconfigured [] []).acc = none ∧
    (block ⟨32#7, 0x04C11DB7#64, 0#64, true, false, 0xFFFFFFFF#64⟩ 0x340BC6D9#64 [] []).acc =
      some ⟨⟨32#7, 0x04C11DB7#64, 0#64, true, false, 0xFFFFFFFF#64⟩, 0x340BC6D9#64,
        buildTable ⟨32#7, 0x04C11DB7#64, 0#64, true, false, 0xFFFFFFFF#64⟩⟩ :=
  ⟨block_legal arc_legal (by decide), rfl, rfl⟩

theorem test_witness_ChecksumInterleaves :
    let s := block arc 0#64 ([.command (encode (.process 1#16)), .command (encode .checksum),
      .command (encode (.process 0#16)), .command (encode .checksum)] ++ [.rst]) ([0x031#9] ++ [] ++ [0x032#9])
    s.acc = some { seeded arc with reg := 0#64 } ∧ [(0x031#9 : Element)].length = (1#16).toNat ∧
    ([] : List Element).length = (0#16).toNat ∧ (∀ e ∈ [(0x031#9 : Element)] ++ [], elementNB e = false) ∧
    s.datIn = [0x031#9] ++ [] ++ [0x032#9] ∧
    s.cmdIn = [.command (encode (.process 1#16)), .command (encode .checksum), .command (encode (.process 0#16)),
      .command (encode .checksum)] ++ [.rst] := ⟨rfl, rfl, rfl, by decide, rfl, rfl⟩

theorem test_witness_ChecksumOfTheSeededState :
    (1 ≤ (64#8).toNat ∧ (64#8).toNat ≤ 64) ∧ (seeded (wide true)).Legal := ⟨by decide, wide_legal _, by decide, rfl⟩

/-- A catalogue entry of width 1 with the empty message and one of width 64 with a message too long for one command. -/
theorem test_witness_CatalogueMapping :
    let present (v : Variant) (message : List Byte) : State :=
      unconfigured ([.command (encode v.configure)] ++
        (assembleProcess (message.map byteElement)).map (fun t => .command (encode t.instr)) ++
        [.command (encode .checksum)] ++ []) (message.map byteElement ++ [])
    let narrow : Variant := ⟨1, 1, 0, true, true, 0⟩
    let wide : Variant := ⟨64, 1, 0, false, false, 0⟩
    let long : List Byte := List.replicate 65536 0x31#8
    ((1 ≤ narrow.width ∧ narrow.width ≤ 64) ∧ (present narrow []).datIn = ([] : List Byte).map byteElement ++ [] ∧
      (present narrow []).cmdIn = [.command (encode narrow.configure)] ++
        (assembleProcess (([] : List Byte).map byteElement)).map (fun t => .command (encode t.instr)) ++
        [.command (encode .checksum)] ++ []) ∧
    ((1 ≤ wide.width ∧ wide.width ≤ 64) ∧ (present wide long).datIn = long.map byteElement ++ [] ∧
      (present wide long).cmdIn = [.command (encode wide.configure)] ++
        (assembleProcess (long.map byteElement)).map (fun t => .command (encode t.instr)) ++
        [.command (encode .checksum)] ++ []) :=
  ⟨⟨by decide, rfl, rfl⟩, by decide, rfl, rfl⟩

theorem test_witness_ChecksumCornerCases :
    ((parity true).Legal ∧ fits (parity true).w 1#64 ∧ (parity true).w = 1) ∧
    (arc.Legal ∧ fits arc.w 0xBB3D#64 ∧ arc.xorout = 0 ∧ arc.refout = false) ∧
    (gsm3.Legal ∧ fits gsm3.w 3#64 ∧ gsm3.xorout = mask gsm3.w) ∧
    ((wide true).Legal ∧ (wide true).w = 64 ∧ (wide true).refout = false) ∧
    (∃ t u v, exec (.process 1#16) (block arc 0xBB3D#64 [] [0x100#9]) = .next t ∧
      t.rspOut = (block arc 0xBB3D#64 [] [0x100#9]).rspOut ++ [⟨.invalidInput, 0⟩] ∧
      exec .checksum (block arc 0xBB3D#64 [] [0x100#9]) = .next u ∧ exec .checksum t = .next v) :=
  ⟨⟨parity_legal _, by decide, rfl⟩, ⟨arc_legal, by decide, rfl, rfl⟩, ⟨gsm3_legal, by decide, by decide⟩,
    ⟨wide_legal _, rfl, rfl⟩, _, _, _, rfl, rfl, rfl, rfl⟩

theorem test_witness_RefusedWithoutAnAccumulator : (unconfigured [] [0x100#9]).acc = none := rfl

/-- Each status is the status of some command. -/
theorem test_witness_EachErrorHasItsCause :
    (∃ t, exec (.config 65#8 1#64 0#64 false false 0#64) (unconfigured [] []) = .next t ∧
      t.rspOut = [⟨.invalidParameter, 0⟩]) ∧
    (∃ t, exec (.process 1#16) (block arc 0#64 [] [0x1FF#9]) = .next t ∧ t.rspOut = [⟨.invalidInput, 0⟩]) ∧
    (∃ t, exec (.process 1#16) (unconfigured [] [0x100#9]) = .next t ∧ t.rspOut = [⟨.refused, 0⟩]) ∧
    (∃ t, exec .reset (block arc 0#64 [] []) = .next t ∧ t.rspOut = [⟨.ok, 0⟩]) :=
  ⟨⟨_, rfl, rfl⟩, ⟨_, rfl, rfl⟩, ⟨_, rfl, rfl⟩, ⟨_, rfl, rfl⟩⟩

theorem test_witness_WellFormedCommandsSucceed :
    (block arc 0#64 [] [0x031#9]).valid = true ∧ (block arc 0#64 [] [0x031#9]).delivers (.process 1#16) ∧
    (∀ e ∈ (block arc 0#64 [] [0x031#9]).datIn.take (1#16).toNat, elementNB e = false) ∧
    (block arc 0#64 [] []).delivers (.process 0#16) :=
  ⟨rfl, by unfold State.delivers; decide, by decide, by unfold State.delivers; decide⟩

/-- An error's response, and the state it leaves. -/
theorem test_witness_ErrorsWriteNoState :
    ∃ t, exec (.process 1#16) (block arc 5#64 [] [0x100#9]) = .next t ∧
      t.rspOut = (block arc 5#64 [] [0x100#9]).rspOut ++ [⟨.invalidInput, 0⟩] ∧
      (⟨.invalidInput, 0⟩ : Response).status ≠ .ok := ⟨_, rfl, rfl, by decide⟩

theorem test_witness_OutcomesOfEachCommand :
    ∃ t, exec .checksum (block arc 0xBB3D#64 [] []) = .next t ∧ t.rspOut = [⟨.ok, 0xBB3D#64⟩] := ⟨_, rfl, by decide⟩

theorem test_witness_HardwareResetClearsValid :
    (block arc 0#64 [.rst] []).cmdIn = .rst :: [] ∧
    (∃ t, step (block arc 0#64 [.rst] []) = .next t ∧ (block arc 0#64 [.rst] []).valid = true ∧ t.valid = false) ∧
    ({ EdgeIn.quiet with rst := true } : EdgeIn).rst = true := ⟨rfl, ⟨_, rfl, rfl, rfl⟩, rfl⟩

theorem test_witness_ResetDuringACommandAbandonsIt :
    (block arc 0#64 [.rstDuring 0x2002#220 1] [0x031#9]).cmdIn = .rstDuring 0x2002#220 1 :: [] ∧
    ({ EdgeIn.quiet with rst := true } : EdgeIn).rst = true := ⟨rfl, rfl⟩

/-- A rejected CONFIG and a refused command come before; then a CONFIG of width 1. -/
theorem test_witness_NothingWorksBeforeConfig :
    ((unconfigured [.command 0x410#220, .command 3#220] []).acc = none ∧
      (∀ cw, .command cw ∈ (unconfigured [.command 0x410#220, .command 3#220] []).cmdIn.take 2 → cw.op = 0b00#2 →
        cw.width.toNat = 0 ∨ 65 ≤ cw.width.toNat) ∧
      ∃ t, run 2 (unconfigured [.command 0x410#220, .command 3#220] []) = .next t) ∧
    ((unconfigured [.command 0x10#220] []).acc = none ∧
      (unconfigured [.command 0x10#220] []).cmdIn = .command 0x10#220 :: [] ∧
      CommandWord.op 0x10#220 = 0b00#2 ∧ 1 ≤ (CommandWord.width 0x10#220).toNat ∧
      (CommandWord.width 0x10#220).toNat ≤ 64) := by
  refine ⟨⟨rfl, ?_, _, rfl⟩, rfl, rfl, by decide⟩
  intro cw h
  simp [unconfigured] at h
  rcases h with rfl | rfl <;> decide

/-- The boundary: one element fewer than `LEN`; and a block that waits for it at the ports. -/
theorem test_witness_MissingPayloadHangs :
    (block arc 0#64 [] [0x031#9]).datIn.length < (2#16).toNat ∧
    (⟨some (seeded arc), .collecting 0x2002#220 [0x031#9]⟩ : Wire).phase = .collecting 0x2002#220 [0x031#9] ∧
    (∀ inp ∈ [EdgeIn.quiet, EdgeIn.quiet], inp.rst = false ∧ inp.datValid = false) := by decide

/-- Every phase the handshake's invariant names. -/
theorem test_witness_HandshakeTakesExactlyThePayload :
    decode 0x2002#220 = .process 2#16 ∧ [(0x031#9 : Element)].length < (2#16).toNat ∧
    [(0x031#9 : Element), 0x032#9].length = elementsTaken (some (seeded arc)) (decode 0x2002#220) ∧
    ([] : List Element).length = elementsTaken none (decode 0x2002#220) := by decide

theorem test_witness_ResponseIsHeldUntilTaken :
    (⟨none, .responding 3#220 [] ⟨.refused, 0⟩⟩ : Wire).phase = .responding 3#220 [] ⟨.refused, 0⟩ ∧
    (EdgeIn.quiet.rst = false ∧ EdgeIn.quiet.rspReady = false) ∧
    (({ EdgeIn.quiet with rspReady := true } : EdgeIn).rst = false) := by decide

/-- A refused PROCESS over edges without a pause, and a PROCESS of one element with an edge before every transfer and one
while it executes. -/
theorem test_witness_EveryCommandIsAnswered :
    (Wire.reset.phase = .idle ∧ (prompt 0x2002#220 []).Proper ∧
      (prompt 0x2002#220 []).payload.length = elementsTaken Wire.reset.acc (decode (prompt 0x2002#220 []).accept.cmd)) ∧
    ((⟨some (seeded arc), .idle⟩ : Wire).phase = .idle ∧ slow.Proper ∧
      slow.payload.length = elementsTaken (⟨some (seeded arc), .idle⟩ : Wire).acc (decode slow.accept.cmd)) :=
  ⟨⟨rfl, by constructor <;> decide, by decide⟩, rfl, by constructor <;> decide, by decide⟩

/-- A run of one whole command ends between commands. -/
theorem test_witness_PortRunsRefineCommandRuns :
    (Wire.run (prompt 3#220 []).edges (Wire.reset, PortLog.empty)).1.phase = .idle := by decide

end Sys2Proof.Tests
end

/-! SUPPORT. The statements of 00_scope.md: runs at the ports against runs of whole commands, bit reversal, and the step
of a presented command. -/

namespace Sys2Proof.Machine

/-! ### The edge of each phase (R61, R180) -/

section Edge
variable {inp : EdgeIn} (acc : Option Accumulator) (log : PortLog)

theorem Wire.edge_rst (h : inp.rst = true) (w : Wire) : w.edge inp = Wire.reset := by simp [Wire.edge, h]

theorem PortLog.edge_rst (h : inp.rst = true) (w : Wire) :
    log.edge inp w = { log with inputs := log.inputs ++ [resetInput w.phase] } := by simp [PortLog.edge, h]

theorem Wire.edge_idle (h : inp.rst = false) :
    Wire.edge ⟨acc, .idle⟩ inp = if inp.cmdValid then ⟨acc, holding acc inp.cmd []⟩ else ⟨acc, .idle⟩ := by
  simp [Wire.edge, h]

theorem PortLog.edge_idle (h : inp.rst = false) : log.edge inp ⟨acc, .idle⟩ = log := by simp [PortLog.edge, h]

theorem Wire.edge_collecting (h : inp.rst = false) (cw : CommandWord) (got : List Element) :
    Wire.edge ⟨acc, .collecting cw got⟩ inp =
      if inp.datValid then ⟨acc, holding acc cw (got ++ [inp.datElem])⟩ else ⟨acc, .collecting cw got⟩ := by
  simp [Wire.edge, h]

theorem PortLog.edge_collecting (h : inp.rst = false) (cw : CommandWord) (got : List Element) :
    log.edge inp ⟨acc, .collecting cw got⟩ =
      if inp.datValid then { log with elements := log.elements ++ [inp.datElem] } else log := by
  simp [PortLog.edge, h]

theorem Wire.edge_executing (h : inp.rst = false) (cw : CommandWord) (payload : List Element) :
    Wire.edge ⟨acc, .executing cw payload⟩ inp =
      if inp.finish then Wire.execute ⟨acc, .executing cw payload⟩ cw payload else ⟨acc, .executing cw payload⟩ := by
  simp [Wire.edge, h]

theorem PortLog.edge_executing (h : inp.rst = false) (cw : CommandWord) (payload : List Element) :
    log.edge inp ⟨acc, .executing cw payload⟩ = log := by simp [PortLog.edge, h]

theorem Wire.edge_responding (h : inp.rst = false) (cw : CommandWord) (payload : List Element) (r : Response) :
    Wire.edge ⟨acc, .responding cw payload r⟩ inp =
      if inp.rspReady then ⟨acc, .idle⟩ else ⟨acc, .responding cw payload r⟩ := by
  simp [Wire.edge, h]

theorem PortLog.edge_responding (h : inp.rst = false) (cw : CommandWord) (payload : List Element) (r : Response) :
    log.edge inp ⟨acc, .responding cw payload r⟩ =
      if inp.rspReady then
        { log with inputs := log.inputs ++ [.command cw], responses := log.responses ++ [r] }
      else log := by
  simp [PortLog.edge, h]

end Edge

/-! ### The step of each host input (R8, R180, R181) -/

/-- Settles O16: `step` reads the head of the command port and hands the decoded word to `exec`. -/
theorem stepRunsTheDecodedCommand : Obligations.StepRunsTheDecodedCommand := by
  intro s cw later h
  rw [step, h]

theorem step_command_of_payload {acc : Option Accumulator} {cw : CommandWord} {payload : List Element}
    (h : payload.length = elementsTaken acc (decode cw)) (later : List HostInput) (rest : List Element)
    (rspOut : List Response) :
    step ⟨acc, .command cw :: later, payload ++ rest, rspOut⟩ =
      .next ⟨(result (decode cw) payload acc).1, later, rest, rspOut ++ [(result (decode cw) payload acc).2]⟩ :=
  (stepRunsTheDecodedCommand _ cw later rfl).trans (exec_of_payload h later rest rspOut)

/-- `rst` in mid-command loses the elements transferred for it, which are no more than it takes (R181). -/
theorem step_rstDuring_of_payload {acc : Option Accumulator} {cw : CommandWord} {got : List Element}
    (h : got.length ≤ elementsTaken acc (decode cw)) (later : List HostInput) (rest : List Element)
    (rspOut : List Response) :
    step ⟨acc, .rstDuring cw got.length :: later, got ++ rest, rspOut⟩ = .next ⟨none, later, rest, rspOut⟩ := by
  simp [step, abandonCommand, Nat.min_eq_left h]

/-! ### Runs at the ports refine runs of whole commands (R8, R49, R61) -/

/-- The command-level machine, from reset, carries out these inputs on these elements whole: it ends with this
accumulator and these responses, whatever the host presents and offers behind them. -/
def RunsWhole (inputs : List HostInput) (taken : List Element) (acc : Option Accumulator)
    (responses : List Response) : Prop :=
  ∀ later rest, run inputs.length ⟨none, inputs ++ later, taken ++ rest, []⟩ = .next ⟨acc, later, rest, responses⟩

theorem RunsWhole.nil : RunsWhole [] [] none [] := fun _ _ => rfl

/-- One more input, with the elements its step takes. -/
theorem RunsWhole.snoc {inputs : List HostInput} {taken : List Element} {acc acc' : Option Accumulator}
    {responses responses' : List Response} (h : RunsWhole inputs taken acc responses) {input : HostInput}
    {payload : List Element}
    (hstep : ∀ later rest, step ⟨acc, input :: later, payload ++ rest, responses⟩ =
      .next ⟨acc', later, rest, responses'⟩) :
    RunsWhole (inputs ++ [input]) (taken ++ payload) acc' responses' := by
  intro later rest
  rw [List.length_append, List.append_assoc, List.append_assoc]
  exact (run_add 1 (h _ _)).trans (run_succ (hstep later rest))

/-- The elements transferred for the command the block holds. -/
def Phase.payload : Phase → List Element
  | .idle => []
  | .collecting _ got => got
  | .executing _ payload => payload
  | .responding _ payload _ => payload

/-- How far the held command is: `before` is the accumulator at its acceptance, which it still is until the command ends
and leaves its result (R61). A block that holds no command has `before` itself. -/
def Phase.CarriesOut (before now : Option Accumulator) : Phase → Prop
  | .idle => now = before
  | .collecting cw got => now = before ∧ got.length < elementsTaken before (decode cw)
  | .executing cw payload => now = before ∧ payload.length = elementsTaken before (decode cw)
  | .responding cw payload r => payload.length = elementsTaken before (decode cw) ∧
      result (decode cw) payload before = (now, r)

/-- The simulation relation between the ports and whole commands: the recorded inputs run whole up to the acceptance of
the held command, and the recorded elements are those they took and those of the held command. -/
def Simulated (w : Wire) (log : PortLog) : Prop :=
  ∃ before taken, RunsWhole log.inputs taken before log.responses ∧ log.elements = taken ++ w.phase.payload ∧
    w.phase.CarriesOut before w.acc

@[simp] theorem payload_holding (acc : Option Accumulator) (cw : CommandWord) (got : List Element) :
    (holding acc cw got).payload = got := by
  unfold holding
  split <;> rfl

/-- A block that holds a command and no more elements than it takes still collects, or executes (R61 step 2). -/
theorem holding_carriesOut {acc : Option Accumulator} {cw : CommandWord} {got : List Element}
    (h : got.length ≤ elementsTaken acc (decode cw)) : (holding acc cw got).CarriesOut acc acc := by
  unfold holding
  split
  · next hlt => exact ⟨rfl, hlt⟩
  · next hge => exact ⟨rfl, Nat.le_antisymm h (Nat.le_of_not_lt hge)⟩

/-- An asserted `rst` is, at the command level, the input that `resetInput` tells (R180, R181). -/
theorem step_resetInput {before now : Option Accumulator} {phase : Phase} (h : phase.CarriesOut before now)
    (later : List HostInput) (rest : List Element) (rspOut : List Response) :
    step ⟨before, resetInput phase :: later, phase.payload ++ rest, rspOut⟩ = .next ⟨none, later, rest, rspOut⟩ := by
  cases phase with
  | idle => rfl
  | collecting cw got => exact step_rstDuring_of_payload (Nat.le_of_lt h.2) later rest rspOut
  | executing cw payload => exact step_rstDuring_of_payload (Nat.le_of_eq h.2) later rest rspOut
  | responding cw payload r => exact step_rstDuring_of_payload (Nat.le_of_eq h.1) later rest rspOut

theorem simulated_reset : Simulated Wire.reset PortLog.empty := ⟨none, [], .nil, rfl, rfl⟩

theorem Simulated.edge_rst {w : Wire} {log : PortLog} (h : Simulated w log) {inp : EdgeIn} (hr : inp.rst = true) :
    Simulated (w.edge inp) (log.edge inp w) := by
  obtain ⟨before, taken, hrun, helements, hphase⟩ := h
  rw [Wire.edge_rst hr, PortLog.edge_rst _ hr]
  refine ⟨none, taken ++ w.phase.payload, ?_, ?_, rfl⟩
  · exact hrun.snoc fun later rest => step_resetInput hphase later rest _
  · exact helements.trans (List.append_nil _).symm

/-- Every edge without `rst` is at the command level either nothing, or, where a response is taken, one whole command. -/
theorem Simulated.edge_no_rst {w : Wire} {log : PortLog} (h : Simulated w log) {inp : EdgeIn}
    (hr : inp.rst = false) : Simulated (w.edge inp) (log.edge inp w) := by
  have stays := h
  obtain ⟨before, taken, hrun, helements, hphase⟩ := h
  obtain ⟨now, phase⟩ := w
  cases phase with
  | idle =>
    obtain rfl : now = before := hphase
    rw [Wire.edge_idle _ hr, PortLog.edge_idle _ _ hr]
    split
    · exact ⟨now, taken, hrun, by rw [helements, payload_holding]; rfl, holding_carriesOut (Nat.zero_le _)⟩
    · exact stays
  | collecting cw got =>
    obtain ⟨rfl, hlt⟩ : now = before ∧ got.length < elementsTaken before (decode cw) := hphase
    rw [Wire.edge_collecting _ hr, PortLog.edge_collecting _ _ hr]
    split
    · have hle : (got ++ [inp.datElem]).length ≤ elementsTaken now (decode cw) := by simpa using hlt
      refine ⟨now, taken, hrun, ?_, holding_carriesOut hle⟩
      rw [payload_holding, helements, List.append_assoc]
      rfl
    · exact stays
  | executing cw payload =>
    obtain ⟨rfl, hlen⟩ : now = before ∧ payload.length = elementsTaken before (decode cw) := hphase
    rw [Wire.edge_executing _ hr, PortLog.edge_executing _ _ hr]
    split
    · rw [Wire.execute_eq hlen]
      exact ⟨now, taken, hrun, helements, hlen, rfl⟩
    · exact stays
  | responding cw payload r =>
    obtain ⟨hlen, hresult⟩ : payload.length = elementsTaken before (decode cw) ∧
      result (decode cw) payload before = (now, r) := hphase
    rw [Wire.edge_responding _ hr, PortLog.edge_responding _ _ hr]
    split
    · refine ⟨now, taken ++ payload, hrun.snoc fun later rest => ?_, ?_, rfl⟩
      · rw [step_command_of_payload hlen, hresult]
      · exact helements.trans (List.append_nil _).symm
    · exact stays

theorem Simulated.edge {w : Wire} {log : PortLog} (h : Simulated w log) (inp : EdgeIn) :
    Simulated (w.edge inp) (log.edge inp w) := by
  cases hr : inp.rst with
  | true => exact h.edge_rst hr
  | false => exact h.edge_no_rst hr

theorem Simulated.run {edges : List EdgeIn} {w w' : Wire} {log log' : PortLog} (h : Simulated w log)
    (hrun : Wire.run edges (w, log) = (w', log')) : Simulated w' log' := by
  induction edges generalizing w log with
  | nil =>
    obtain ⟨rfl, rfl⟩ := Prod.mk.inj hrun
    exact h
  | cons inp later ih => exact ih (h.edge inp) hrun

/-- Settles O59: `Simulated` holds at reset and every edge keeps it; between commands the held command's share is empty,
so the record has run whole. -/
theorem portRunsRefineCommandRuns : Obligations.PortRunsRefineCommandRuns := by
  intro edges w log hrun hidle
  obtain ⟨before, taken, hwhole, helements, hphase⟩ := simulated_reset.run hrun
  rw [hidle] at helements hphase
  obtain rfl : w.acc = before := hphase
  have := hwhole [] []
  simp only [List.append_nil] at this
  rwa [show log.elements = taken from helements.trans (List.append_nil taken)]

/-! ### Bit reversal (R11) -/

theorem getLsbD_rev_of_lt {n i : Nat} (h : n ≤ 64) (hi : i < n) (v : Word) :
    (rev n v).getLsbD i = v.getLsbD (n - 1 - i) := by
  rw [getLsbD_rev, decide_eq_true (Nat.lt_of_lt_of_le hi h), decide_eq_true hi, Bool.true_and, Bool.true_and]

/-- Values below 2^n are equal when their low n bits are. -/
theorem eq_of_fits_of_getLsbD_eq {n : Nat} {u v : Word} (hu : fits n u) (hv : fits n v)
    (h : ∀ i, i < n → u.getLsbD i = v.getLsbD i) : u = v := by
  refine BitVec.eq_of_getLsbD_eq fun i _ => ?_
  rcases Nat.lt_or_ge i n with hi | hi
  · exact h i hi
  · rw [fits_getLsbD hu hi, fits_getLsbD hv hi]

theorem rev_rev {n : Nat} (h : n ≤ 64) {v : Word} (hv : fits n v) : rev n (rev n v) = v :=
  eq_of_fits_of_getLsbD_eq (fits_rev n _) hv fun i hi => by
    rw [getLsbD_rev_of_lt h hi, getLsbD_rev_of_lt h (by omega), show n - 1 - (n - 1 - i) = i by omega]

theorem rev_zero {n : Nat} (h : n ≤ 64) : rev n 0 = 0 :=
  eq_of_fits_of_getLsbD_eq (fits_rev n 0) (fits_zero n) fun i hi => by
    rw [getLsbD_rev_of_lt h hi]
    simp

theorem fits_mask {n : Nat} (h : n ≤ 64) : fits n (mask n) := by
  rw [fits, toNat_mask h]
  exact Nat.sub_lt (Nat.two_pow_pos n) Nat.one_pos

theorem rev_mask {n : Nat} (h : n ≤ 64) : rev n (mask n) = mask n :=
  eq_of_fits_of_getLsbD_eq (fits_rev n _) (fits_mask h) fun i hi => by
    have hi64 : i < 64 := Nat.lt_of_lt_of_le hi h
    have hmirror : n - 1 - i < n ∧ n - 1 - i < 64 := by omega
    rw [getLsbD_rev_of_lt h hi, getLsbD_mask, getLsbD_mask]
    simp only [hi, hi64, hmirror]

theorem rev_one {v : Word} (h : fits 1 v) : rev 1 v = v :=
  eq_of_fits_of_getLsbD_eq (fits_rev 1 v) h fun i hi => by
    obtain rfl : i = 0 := Nat.lt_one_iff.1 hi
    rw [getLsbD_rev_of_lt (by decide) hi]

/-- Settles O1: bit by bit, by the reading of `rev` in `getLsbD_rev`. -/
theorem bitReversal : Obligations.BitReversal :=
  ⟨fun n v _ h hv =>
      ⟨fits_rev n v, fun _ hi => getLsbD_rev_of_lt h hi v, rev_rev h hv, rev_zero h, rev_mask h⟩,
    fun _ hv => rev_one hv, by decide, by decide, by decide⟩

end Sys2Proof.Machine

/-! SUPPORT. The statements of 10_state.md: the invariant of a configured block, who writes `VALID`, the parameters and
the table, the frame of the register commands, and the reach of the output parameters. -/

namespace Sys2Proof.Machine

/-! ### Folds keep the register below 2^W (R21, R123) -/

/-- Every entry of a built table was stored through the mask (R42, R97). -/
theorem fits_memRead_buildTable (c : Cfg) (i : Byte) : fits c.w (memRead (buildTable c) i) := by
  rw [memRead_buildTable]
  exact fits_and_mask _ _

theorem fits_foldTable {c : Cfg} {r : Word} (hr : fits c.w r) (b : Byte) :
    fits c.w (foldTable c (buildTable c) r b) := by
  unfold foldTable
  split
  · exact fits_xor (fits_memRead_buildTable c _) (fits_ushiftRight hr 8)
  · exact fits_xor (fits_and_mask _ _) (fits_memRead_buildTable c _)

theorem fits_foldBytes {c : Cfg} {r : Word} (hr : fits c.w r) (bytes : List Byte) :
    fits c.w (foldBytes c (buildTable c) r bytes) := by
  induction bytes generalizing r with
  | nil => exact hr
  | cons b bytes ih => exact ih (fits_foldTable hr b)

/-- Settles O33: the shifted register and the table entry are both below 2^W, in either convention. -/
theorem foldKeepsTheWidth : Obligations.FoldKeepsTheWidth := fun _ _ b _ hr => fits_foldTable hr b

/-! ### What a step and a command can do to the accumulator -/

/-- Everything one step can do when it answers (R8, R167, R180, R181). -/
theorem step_next_cases {s t : State} (h : step s = .next t) :
    (s.cmdIn = [] ∧ t = s) ∨
    (∃ cw later, s.cmdIn = .command cw :: later ∧ exec (decode cw) { s with cmdIn := later } = .next t) ∨
    (∃ later, s.cmdIn = .rst :: later ∧ t = hardReset { s with cmdIn := later }) ∨
    (∃ cw taken later, s.cmdIn = .rstDuring cw taken :: later ∧
      t = abandonCommand (decode cw) taken { s with cmdIn := later }) := by
  cases hc : s.cmdIn with
  | nil =>
    simp only [step, hc, Host.Outcome.next.injEq] at h
    exact .inl ⟨rfl, h.symm⟩
  | cons input later =>
    cases input with
    | command cw => exact .inr (.inl ⟨cw, later, rfl, stepRunsTheDecodedCommand s cw later hc ▸ h⟩)
    | rst =>
      simp only [step, hc, Host.Outcome.next.injEq] at h
      exact .inr (.inr (.inl ⟨later, rfl, h.symm⟩))
    | rstDuring cw taken =>
      simp only [step, hc, Host.Outcome.next.injEq] at h
      exact .inr (.inr (.inr ⟨cw, taken, later, rfl, h.symm⟩))

/-- The values a RESET or a PROCESS gives `REG` (R110, R115). -/
def NextReg (a : Accumulator) (r : Word) : Prop :=
  r = a.cfg.init ∨ ∃ bytes, r = foldBytes a.cfg a.table a.reg bytes

/-- A command writes a new accumulator, or `REG` alone, or nothing. -/
theorem exec_acc_cases {i : Instr} {s t : State} (h : exec i s = .next t) :
    (∃ width poly init refin refout xorout, i = .config width poly init refin refout xorout ∧ widthLegal width = true ∧
      t.acc = some (seeded (maskedCfg width poly init refin refout xorout))) ∨
    (∃ a r, s.acc = some a ∧ NextReg a r ∧ t.acc = some { a with reg := r }) ∨
    t.acc = s.acc := by
  obtain ⟨payload, rest, -, -, rfl⟩ := exec_next h
  obtain ⟨width, poly, init, refin, refout, xorout, hi, hw, hr⟩ | ⟨a, -, ha, hr⟩ | ⟨a, len, -, ha, -, hr⟩ |
    ⟨a, -, ha, hr⟩ | ⟨_, _, _, _, _, _, -, -, hr⟩ | ⟨_, _, -, -, -, hr⟩ | ⟨-, -, hr⟩ :=
    result_cases i payload s.acc
  case inl => exact .inl ⟨width, poly, init, refin, refout, xorout, hi, hw, by rw [hr, respond_fst]⟩
  case inr.inl => exact .inr (.inl ⟨a, _, ha, .inl rfl, by rw [hr, respond_fst]⟩)
  case inr.inr.inl => exact .inr (.inl ⟨a, _, ha, .inr ⟨_, rfl⟩, by rw [hr, respond_fst]⟩)
  case inr.inr.inr.inl => exact .inr (.inr (by rw [hr, respond_fst, ha]))
  all_goals exact .inr (.inr (by rw [hr, raise_fst]))

/-! ### The invariant of a configured block (R21, R25, R31, R33) -/

theorem inv_of_acc_eq_none {s : State} (h : s.acc = none) : s.Inv := fun a ha => by
  rw [h] at ha
  cases ha

/-- CONFIG checks the width and masks every number it writes (R91, R92). -/
theorem maskedCfg_legal {width : BitVec 8} (h : widthLegal width = true) (poly init : Word) (refin refout : Bool)
    (xorout : Word) : (maskedCfg width poly init refin refout xorout).Legal := by
  obtain ⟨hpos, hle⟩ := (widthLegal_iff width).1 h
  have hw := maskedCfg_w hle poly init refin refout xorout
  constructor <;> rw [hw]
  case width_pos => exact hpos
  case width_le => exact hle
  all_goals exact fits_and_mask _ _

theorem seeded_legal {c : Cfg} (h : c.Legal) : (seeded c).Legal := ⟨h, h.init_fits, rfl⟩

theorem NextReg.fits {a : Accumulator} {r : Word} (h : NextReg a r) (ha : a.Legal) : fits a.cfg.w r := by
  obtain rfl | ⟨bytes, rfl⟩ := h
  · exact ha.cfg_legal.init_fits
  · rw [ha.table_built]
    exact fits_foldBytes ha.reg_fits bytes

theorem exec_preserves_inv {i : Instr} {s t : State} (h : exec i s = .next t) (hs : s.Inv) : t.Inv := by
  intro b hb
  obtain ⟨width, poly, init, refin, refout, xorout, -, hw, ht⟩ | ⟨a, r, ha, hr, ht⟩ | ht := exec_acc_cases h
  · obtain rfl : _ = b := Option.some.inj (ht.symm.trans hb)
    exact seeded_legal (maskedCfg_legal hw poly init refin refout xorout)
  · obtain rfl : _ = b := Option.some.inj (ht.symm.trans hb)
    have hlegal := hs a ha
    exact ⟨hlegal.cfg_legal, hr.fits hlegal, hlegal.table_built⟩
  · exact hs b (ht.symm.trans hb)

/-- Settles O3: a command keeps the invariant by `exec_preserves_inv`, and hardware reset leaves no accumulator. -/
theorem everyStepKeepsTheInvariant : Obligations.EveryStepKeepsTheInvariant := by
  intro s t hs h
  obtain ⟨-, rfl⟩ | ⟨cw, later, -, he⟩ | ⟨later, -, rfl⟩ | ⟨cw, taken, later, -, rfl⟩ := step_next_cases h
  · exact hs
  · exact exec_preserves_inv he hs
  · exact inv_of_acc_eq_none rfl
  · exact inv_of_acc_eq_none rfl

/-- Settles O2: there is no accumulator at reset (R37). -/
theorem resetMeetsTheInvariant : Obligations.ResetMeetsTheInvariant := ⟨inv_of_acc_eq_none reset_acc, rfl⟩

/-! ### `VALID` (R24) -/

theorem decode_of_op_eq_zero {cw : CommandWord} (h : cw.op = 0b00#2) :
    decode cw = .config cw.width cw.poly cw.init cw.refin cw.refout cw.xorout := by
  rw [decode, if_pos h]

/-- Only the words of opcode 00 are CONFIGs, and they carry their width as it stands (R63, R65). -/
theorem op_and_width_of_decode_eq_config {cw : CommandWord} {width : BitVec 8} {poly init : Word} {refin refout : Bool}
    {xorout : Word} (h : decode cw = .config width poly init refin refout xorout) :
    cw.op = 0b00#2 ∧ cw.width = width := by
  by_cases hop : cw.op = 0b00#2
  · rw [decode_of_op_eq_zero hop] at h
    injection h with hwidth
    exact ⟨hop, hwidth⟩
  · rw [decode, if_neg hop] at h
    split at h
    · cases h
    · split at h <;> cases h

/-- No command takes the accumulator away. -/
theorem exec_keeps_valid {i : Instr} {s t : State} (h : exec i s = .next t) (hs : s.valid = true) : t.valid = true := by
  obtain ⟨_, _, _, _, _, _, -, -, ht⟩ | ⟨_, _, -, -, ht⟩ | ht := exec_acc_cases h
  · simp [State.valid, ht]
  · simp [State.valid, ht]
  · exact (congrArg Option.isSome ht).trans hs

/-- Only a successful CONFIG makes an accumulator. -/
theorem config_of_exec_raises_valid {i : Instr} {s t : State} (h : exec i s = .next t) (hs : s.valid = false)
    (ht : t.valid = true) :
    ∃ width poly init refin refout xorout, i = .config width poly init refin refout xorout ∧
      widthLegal width = true := by
  obtain ⟨width, poly, init, refin, refout, xorout, hi, hw, -⟩ | ⟨a, _, ha, -, -⟩ | hacc := exec_acc_cases h
  · exact ⟨width, poly, init, refin, refout, xorout, hi, hw⟩
  · simp [State.valid, ha] at hs
  · have hvalid : t.valid = s.valid := congrArg Option.isSome hacc
    rw [hs, ht] at hvalid
    cases hvalid

theorem valid_rises_only_by_config {s t : State} (h : step s = .next t) (hs : s.valid = false) (ht : t.valid = true) :
    ∃ cw later, s.cmdIn = .command cw :: later ∧ cw.op = 0b00#2 ∧ 1 ≤ cw.width.toNat ∧ cw.width.toNat ≤ 64 := by
  obtain ⟨-, rfl⟩ | ⟨cw, later, hc, he⟩ | ⟨later, -, rfl⟩ | ⟨cw, taken, later, -, rfl⟩ := step_next_cases h
  · exact absurd ht (by simp [hs])
  · obtain ⟨width, _, _, _, _, _, hi, hw⟩ := config_of_exec_raises_valid he hs ht
    obtain ⟨hop, rfl⟩ := op_and_width_of_decode_eq_config hi
    exact ⟨cw, later, hc, hop, (widthLegal_iff _).1 hw⟩
  · cases ht
  · cases ht

theorem valid_falls_only_by_hardware_reset {s t : State} (h : step s = .next t) (hs : s.valid = true)
    (ht : t.valid = false) :
    ∃ later, s.cmdIn = .rst :: later ∨ ∃ cw taken, s.cmdIn = .rstDuring cw taken :: later := by
  obtain ⟨-, rfl⟩ | ⟨cw, later, -, he⟩ | ⟨later, hc, -⟩ | ⟨cw, taken, later, hc, -⟩ := step_next_cases h
  · exact absurd hs (by simp [ht])
  · exact absurd (exec_keeps_valid he hs) (by simp [ht])
  · exact ⟨later, .inl hc⟩
  · exact ⟨later, .inr ⟨cw, taken, hc⟩⟩

theorem valid_after_legal_config {s t : State} (h : step s = .next t) {cw : CommandWord} {later : List HostInput}
    (hc : s.cmdIn = .command cw :: later) (hop : cw.op = 0b00#2) (hw : widthLegal cw.width = true) :
    t.valid = true := by
  rw [stepRunsTheDecodedCommand s cw later hc, decode_of_op_eq_zero hop, exec_config_legal hw] at h
  cases h
  rfl

/-- Settles O4, one lemma for each of its three parts. -/
theorem validChangesOnlyByConfigAndHardwareReset : Obligations.ValidChangesOnlyByConfigAndHardwareReset :=
  fun _ _ h => ⟨valid_rises_only_by_config h, valid_falls_only_by_hardware_reset h,
    fun _ _ hc hop hpos hle => valid_after_legal_config h hc hop ((widthLegal_iff _).2 ⟨hpos, hle⟩)⟩

/-! ### Parameters and table (R32) -/

/-- Settles O5: beside a legal CONFIG, a command writes `REG` alone or nothing. -/
theorem onlyConfigWritesParametersAndTable : Obligations.OnlyConfigWritesParametersAndTable := by
  intro i s t h
  obtain ⟨width, poly, init, refin, refout, xorout, hi, hw, -⟩ | ⟨a, r, ha, -, ht⟩ | ht := exec_acc_cases h
  · exact .inl ⟨width, poly, init, refin, refout, xorout, hi, (widthLegal_iff width).1 hw⟩
  · exact .inr (.inr ⟨a, _, ha, ht, rfl, fun _ => rfl⟩)
  · cases ha : s.acc with
    | none => exact .inr (.inl ⟨rfl, ht.trans ha⟩)
    | some a => exact .inr (.inr ⟨a, a, rfl, ht.trans ha, rfl, fun _ => rfl⟩)

/-! ### The frame of RESET, PROCESS and CHECKSUM -/

/-- A command leaves the commands to come alone and takes its elements from the head of the data channel (R61, R67). -/
theorem exec_channels {i : Instr} {s t : State} {n : Nat} (h : exec i s = .next t) (hn : elementsTaken s.acc i = n) :
    t.cmdIn = s.cmdIn ∧ s.datIn = s.datIn.take n ++ t.datIn ∧ (s.datIn.take n).length = n := by
  obtain ⟨payload, rest, hd, hl, rfl⟩ := exec_next h
  have htake : s.datIn.take n = payload := by rw [hd, ← hn, ← hl, List.take_left]
  rw [htake]
  exact ⟨rfl, hd, hl.trans hn⟩

theorem exec_keeps_parameters_and_table {i : Instr} {s t : State} {a : Accumulator} (h : exec i s = .next t)
    (ha : s.acc = some a)
    (hi : ∀ width poly init refin refout xorout, i ≠ .config width poly init refin refout xorout) :
    ∃ b, t.acc = some b ∧ b.cfg = a.cfg ∧ ∀ k, memRead b.table k = memRead a.table k := by
  obtain ⟨_, _, _, _, _, _, hc, -⟩ | ⟨hnone, -⟩ | ⟨a', b, ha', hb, hframe⟩ := onlyConfigWritesParametersAndTable i s t h
  · exact absurd hc (hi _ _ _ _ _ _)
  · cases ha.symm.trans hnone
  · obtain rfl : a' = a := Option.some.inj (ha'.symm.trans ha)
    exact ⟨b, hb, hframe⟩

/-- CHECKSUM writes nothing, with an accumulator or without one (R140, R142). -/
theorem exec_checksum_acc {s t : State} (h : exec .checksum s = .next t) : t.acc = s.acc := by
  obtain ⟨payload, rest, -, -, rfl⟩ := exec_next h
  cases ha : s.acc <;> rfl

/-- Settles O7: `exec_channels` with the elements each command takes, and R32 for the parameters and the table. -/
theorem frameOfRegisterCommands : Obligations.FrameOfRegisterCommands := by
  intro s t a ha
  refine ⟨fun h => ?reset, fun len h => ?process, fun h => ?checksum⟩
  case reset =>
    obtain ⟨hcmd, hdat, -⟩ := exec_channels (n := 0) h (by rw [ha]; rfl)
    exact ⟨hcmd, hdat.symm, exec_keeps_parameters_and_table h ha nofun⟩
  case process =>
    obtain ⟨hcmd, hdat, hlen⟩ := exec_channels (n := len.toNat) h (by rw [ha]; rfl)
    exact ⟨hcmd, hdat, hlen, exec_keeps_parameters_and_table h ha nofun⟩
  case checksum =>
    obtain ⟨hcmd, hdat, -⟩ := exec_channels (n := 0) h (by rw [ha]; rfl)
    exact ⟨hcmd, hdat.symm, a, (exec_checksum_acc h).trans ha, rfl, rfl, fun _ => rfl⟩

/-! ### What the datapath reads of the configuration (R29, R30, R34) -/

theorem foldBits_congr {c d : Cfg} (hw : c.width = d.width) (hp : c.poly = d.poly) (hr : c.refin = d.refin) :
    foldBits c = foldBits d := by
  have hstep : stepBit c = stepBit d := by
    unfold stepBit stepLSB stepMSB prefl Cfg.w
    rw [hw, hp, hr]
  unfold foldBits
  rw [hstep, hr]

/-- The table is a function of width, polynomial and input reflection. -/
theorem buildTable_congr {c d : Cfg} (hw : c.width = d.width) (hp : c.poly = d.poly) (hr : c.refin = d.refin) :
    buildTable c = buildTable d := by
  unfold buildTable Cfg.w
  rw [foldBits_congr hw hp hr, hw]

/-- Beside the table, a fold reads the width and the input reflection alone. -/
theorem foldBytes_congr {c d : Cfg} (hw : c.width = d.width) (hr : c.refin = d.refin) (table : Memory) :
    foldBytes c table = foldBytes d table := by
  have hfold : foldTable c table = foldTable d table := by
    unfold foldTable tableIndex Cfg.w
    rw [hw, hr]
  unfold foldBytes
  rw [hfold]

/-- An accumulator with other output parameters. -/
def Accumulator.setOutput (refout : Bool) (xorout : Word) (a : Accumulator) : Accumulator :=
  { a with cfg := { a.cfg with refout := refout, xorout := xorout } }

theorem elementsTaken_map (f : Accumulator → Accumulator) (acc : Option Accumulator) (i : Instr) :
    elementsTaken (acc.map f) i = elementsTaken acc i := by cases acc <;> rfl

theorem reseed_setOutput (refout : Bool) (xorout : Word) (acc : Option Accumulator) :
    reseed (acc.map (.setOutput refout xorout)) =
      ((reseed acc).1.map (.setOutput refout xorout), (reseed acc).2) := by
  cases acc <;> rfl

theorem process_setOutput (refout : Bool) (xorout : Word) (payload : List Element) (acc : Option Accumulator) :
    process payload (acc.map (.setOutput refout xorout)) =
      ((process payload acc).1.map (.setOutput refout xorout), (process payload acc).2) := by
  cases acc with
  | none => rfl
  | some a =>
    have hfold : foldBytes (a.setOutput refout xorout).cfg a.table = foldBytes a.cfg a.table :=
      foldBytes_congr rfl rfl _
    cases hnb : payload.any elementNB with
    | true => simp [process, hnb, raise]
    | false => simp [process, hnb, respond, Accumulator.setOutput, ← hfold]

/-- Where a command's result commutes with a change of the accumulator, so does the whole command. -/
theorem exec_map_acc {f : Accumulator → Accumulator} {i : Instr} {s t : State}
    (hf : ∀ payload acc, result i payload (acc.map f) = ((result i payload acc).1.map f, (result i payload acc).2))
    (h : exec i s = .next t) : exec i { s with acc := s.acc.map f } = .next { t with acc := t.acc.map f } := by
  obtain ⟨payload, rest, hd, hl, rfl⟩ := exec_next h
  rw [hd, exec_of_payload (hl.trans (elementsTaken_map f s.acc i).symm), hf]

/-- Settles O8: RESET and PROCESS commute with `Accumulator.setOutput`, and the table reads neither parameter. -/
theorem outputParametersReachOnlyTheChecksum : Obligations.OutputParametersReachOnlyTheChecksum := by
  refine ⟨fun a refout xorout => buildTable_congr rfl rfl rfl, fun s t i refout xorout hi h => ?_⟩
  refine exec_map_acc (f := .setOutput refout xorout) (fun payload acc => ?_) h
  obtain rfl | ⟨len, rfl⟩ := hi
  · exact reseed_setOutput refout xorout acc
  · exact process_setOutput refout xorout payload acc

end Sys2Proof.Machine

/-! SUPPORT. The statements of 20_memory.md: reads and writes of the table, and CONFIG's loop of writes. -/

namespace Sys2Proof.Machine

/-- `writeEntries` is the loop of R90 over the indices in order. -/
theorem foldl_memWrite_range_eq_writeEntries (c : Cfg) (m : Memory) (n : Nat) :
    (List.range n).foldl (fun t i => memWrite t (BitVec.ofNat 8 i) c.w (foldBits c 0 (BitVec.ofNat 8 i))) m =
      writeEntries c m n := by
  induction n with
  | zero => rfl
  | succ n ih => rw [List.range_succ, List.foldl_concat, ih, writeEntries]

/-- The table of a legal accumulator is a built one, so every entry is below 2^W (R42). -/
theorem Accumulator.Legal.fits_memRead {a : Accumulator} (h : a.Legal) (i : Byte) :
    fits a.cfg.w (memRead a.table i) := by
  rw [h.table_built]
  exact fits_memRead_buildTable a.cfg i

/-- Settles O9: the read-after-write laws of the table, and the loop of R90 as `writeEntries`. -/
theorem tableReadsAndWrites : Obligations.TableReadsAndWrites := by
  refine ⟨fun m i j n v hm => ?laws, fun _ i ha => ha.fits_memRead i, fun c m hm => ?loop⟩
  case laws =>
    exact ⟨memWrite_wf hm i n v, memRead_memWrite_same hm i n v, fun hji => memRead_memWrite_other m hji.symm n v⟩
  case loop =>
    rw [foldl_memWrite_range_eq_writeEntries, writeEntries_eq_buildTable c hm]

end Sys2Proof.Machine

/-! SUPPORT. The statements of 30_encoding.md and what follows from them: command and response words, the outcomes of a
command, the handshake at the ports, and PROCESS lines of any length. -/

namespace Sys2Proof

/-! ### Command words (R62 to R64) -/

theorem op_cases (op : BitVec 2) : op = 0b00#2 ∨ op = 0b01#2 ∨ op = 0b10#2 ∨ op = 0b11#2 := by
  revert op; decide

theorem ofBool_getLsbD {n : Nat} (v : BitVec n) (i : Nat) : BitVec.ofBool (v.getLsbD i) = v.extractLsb' i 1 := by
  apply BitVec.eq_of_getLsbD_eq
  intro j hj
  obtain rfl : j = 0 := Nat.lt_one_iff.1 hj
  simp

section Fields
variable (refin refout : Bool) (width : BitVec 8) (len : Config.Length) (poly init xorout : Word)

@[simp] theorem decode_packFields_config :
    decode (packFields 0b00#2 refin refout width len poly init xorout) =
      .config width poly init refin refout xorout := by
  simp [decode, packFields_op, packFields_width, packFields_poly, packFields_init, packFields_refin, packFields_refout,
    packFields_xorout]

@[simp] theorem decode_packFields_reset :
    decode (packFields 0b01#2 refin refout width len poly init xorout) = .reset := by
  simp [decode, packFields_op]

@[simp] theorem decode_packFields_process :
    decode (packFields 0b10#2 refin refout width len poly init xorout) = .process len := by
  simp [decode, packFields_op, packFields_len]

@[simp] theorem decode_packFields_checksum :
    decode (packFields 0b11#2 refin refout width len poly init xorout) = .checksum := by
  simp [decode, packFields_op]

end Fields

@[simp] theorem decode_encode (i : Instr) : decode (encode i) = i := by
  cases i with
  | config width poly init refin refout xorout => exact decode_packFields_config refin refout width 0 poly init xorout
  | reset => exact decode_packFields_reset _ _ _ _ _ _ _
  | process len => exact decode_packFields_process _ _ _ len _ _ _
  | checksum => exact decode_packFields_checksum _ _ _ _ _ _ _

/-- The fields of R62 cover the 220 bits without a gap: a word is the packing of its own fields. -/
theorem packFields_fields (cw : CommandWord) :
    packFields cw.op cw.refin cw.refout cw.width cw.len cw.poly cw.init cw.xorout = cw := by
  have hrefin : BitVec.ofBool cw.refin = cw.extractLsb' 2 1 := ofBool_getLsbD cw 2
  have hrefout : BitVec.ofBool cw.refout = cw.extractLsb' 3 1 := ofBool_getLsbD cw 3
  simp only [packFields, hrefin, hrefout, CommandWord.op, CommandWord.width, CommandWord.len, CommandWord.poly,
    CommandWord.init, CommandWord.xorout, BitVec.extractLsb'_append_extractLsb'_eq_extractLsb']
  exact BitVec.extractLsb'_eq_self

theorem exists_eq_packFields (cw : CommandWord) : ∃ op refin refout width len poly init xorout,
    cw = packFields op refin refout width len poly init xorout :=
  ⟨_, _, _, _, _, _, _, _, (packFields_fields cw).symm⟩

/-! ### Canonical words (R64, U16) -/

section Canonical
variable {refin refout : Bool} {width : BitVec 8} {len : Config.Length} {poly init xorout : Word}

theorem canonical_packFields_config :
    (packFields 0b00#2 refin refout width len poly init xorout).canonical = true ↔ len = 0 := by
  simp [CommandWord.canonical, packFields_op, packFields_len]

theorem canonical_packFields_process :
    (packFields 0b10#2 refin refout width len poly init xorout).canonical = true ↔
      refin = false ∧ refout = false ∧ width = 0 ∧ poly = 0 ∧ init = 0 ∧ xorout = 0 := by
  simp [CommandWord.canonical, packFields_op, packFields_refin, packFields_refout, packFields_width, packFields_poly,
    packFields_init, packFields_xorout, and_assoc]

/-- RESET and CHECKSUM have no operands. -/
theorem canonical_packFields_of_no_operands {op : BitVec 2} (hop : op = 0b01#2 ∨ op = 0b11#2) :
    (packFields op refin refout width len poly init xorout).canonical = true ↔
      refin = false ∧ refout = false ∧ width = 0 ∧ len = 0 ∧ poly = 0 ∧ init = 0 ∧ xorout = 0 := by
  have hconfig : op ≠ 0b00#2 := by rintro rfl; simp at hop
  have hprocess : op ≠ 0b10#2 := by rintro rfl; simp at hop
  simp [CommandWord.canonical, packFields_op, packFields_refin, packFields_refout, packFields_width, packFields_len,
    packFields_poly, packFields_init, packFields_xorout, hconfig, hprocess, and_assoc]

end Canonical

theorem encode_canonical (i : Instr) : (encode i).canonical = true := by
  cases i with
  | config width poly init refin refout xorout => exact canonical_packFields_config.2 rfl
  | reset => exact (canonical_packFields_of_no_operands (.inl rfl)).2 ⟨rfl, rfl, rfl, rfl, rfl, rfl, rfl⟩
  | process len => exact canonical_packFields_process.2 ⟨rfl, rfl, rfl, rfl, rfl, rfl⟩
  | checksum => exact (canonical_packFields_of_no_operands (.inr rfl)).2 ⟨rfl, rfl, rfl, rfl, rfl, rfl, rfl⟩

theorem encode_decode_of_canonical {cw : CommandWord} (h : cw.canonical = true) : encode (decode cw) = cw := by
  obtain ⟨op, refin, refout, width, len, poly, init, xorout, rfl⟩ := exists_eq_packFields cw
  obtain rfl | rfl | rfl | rfl := op_cases op
  · obtain rfl := canonical_packFields_config.1 h
    rw [decode_packFields_config, encode]
  · obtain ⟨rfl, rfl, rfl, rfl, rfl, rfl, rfl⟩ := (canonical_packFields_of_no_operands (.inl rfl)).1 h
    rw [decode_packFields_reset, encode]
  · obtain ⟨rfl, rfl, rfl, rfl, rfl, rfl⟩ := canonical_packFields_process.1 h
    rw [decode_packFields_process, encode]
  · obtain ⟨rfl, rfl, rfl, rfl, rfl, rfl, rfl⟩ := (canonical_packFields_of_no_operands (.inr rfl)).1 h
    rw [decode_packFields_checksum, encode]

/-- Settles O12: encoding writes canonical words, and zero unused fields are all that decoding loses. -/
theorem canonicalWordsAreTheEncodedOnes : Obligations.CanonicalWordsAreTheEncodedOnes := fun cw =>
  ⟨encode_decode_of_canonical, fun h => h ▸ encode_canonical (decode cw)⟩

/-! ### Command words as bytes (log entry 10) -/

@[simp] theorem length_bytesOfNat (count n : Nat) : (bytesOfNat count n).length = count := by
  induction count generalizing n with
  | zero => rfl
  | succ count ih => rw [bytesOfNat, List.length_cons, ih]

/-- `count` bytes hold a number modulo 256^count. -/
theorem natOfBytes_bytesOfNat (count n : Nat) : natOfBytes (bytesOfNat count n) = n % 256 ^ count := by
  induction count generalizing n with
  | zero => rw [bytesOfNat, natOfBytes, Nat.pow_zero, Nat.mod_one]
  | succ count ih =>
    rw [bytesOfNat, natOfBytes, ih, BitVec.toNat_ofNat, Nat.pow_succ' (m := 256)]
    exact Nat.mod_mul.symm

theorem decodeBytes_bytesOfNat (cw : CommandWord) :
    decodeBytes (bytesOfNat Config.cwBytes cw.toNat) = .ok (decode cw) := by
  have hword : natOfBytes (bytesOfNat Config.cwBytes cw.toNat) = cw.toNat := by
    rw [natOfBytes_bytesOfNat]
    exact Nat.mod_eq_of_lt (Nat.lt_trans cw.isLt (by decide))
  rw [decodeBytes, if_neg (not_not_intro (length_bytesOfNat _ _)), hword, if_neg (Nat.not_le_of_lt cw.isLt),
    BitVec.ofNat_toNat, BitVec.setWidth_eq]

/-- Settles O10: field by field, and the 28 bytes of a word hold its number. -/
theorem decodeOfEncodeIsTheCommand : Obligations.DecodeOfEncodeIsTheCommand := fun i =>
  ⟨decode_encode i, (decodeBytes_bytesOfNat (encode i)).trans (congrArg Except.ok (decode_encode i))⟩

/-- Settles O11: each opcode's reading of a packed word, and every word as the packing of its fields. -/
theorem unusedFieldsAreIgnored : Obligations.UnusedFieldsAreIgnored :=
  ⟨fun refin refout width len poly init xorout =>
      ⟨decode_packFields_config refin refout width len poly init xorout,
        decode_packFields_reset refin refout width len poly init xorout,
        decode_packFields_process refin refout width len poly init xorout,
        decode_packFields_checksum refin refout width len poly init xorout⟩,
    exists_eq_packFields, encode_canonical⟩

end Sys2Proof

namespace Sys2Proof.Machine

/-! ### Response words and the outcomes of a command (R69, R70, R154) -/

@[simp] theorem word_extract_status (r : Response) : r.word.extractLsb' 0 2 = r.status.code := by
  rw [Response.word, BitVec.extractLsb'_append_eq_of_add_le (Nat.le_refl 2), BitVec.extractLsb'_eq_self]

@[simp] theorem word_extract_value (r : Response) : r.word.extractLsb' 2 64 = r.value :=
  BitVec.extractLsb'_append_eq_left

theorem ofWord_word (r : Response) : Response.ofWord r.word = r := by
  rw [Response.ofWord, word_extract_status, word_extract_value, ofCode_code]

theorem word_ofWord (rw : ResponseWord) : (Response.ofWord rw).word = rw := by
  simp only [Response.word, Response.ofWord, code_ofCode, BitVec.extractLsb'_append_extractLsb'_eq_extractLsb']
  exact BitVec.extractLsb'_eq_self

theorem exec_appends_one_response {i : Instr} {s t : State} (h : exec i s = .next t) :
    ∃ r, t.rspOut = s.rspOut ++ [r] := by
  obtain ⟨payload, rest, -, -, rfl⟩ := exec_next h
  exact ⟨_, rfl⟩

/-- Settles O14: the two fields of a response word, the codes, and `exec_next` for the one response. -/
theorem responseWordCarriesStatusAndValue : Obligations.ResponseWordCarriesStatusAndValue :=
  ⟨fun r => ⟨ofWord_word r, word_extract_status r, word_extract_value r⟩, word_ofWord, rfl, rfl, rfl, rfl,
    fun _ _ _ => exec_appends_one_response⟩

/-- The statuses R154 lists for each command. -/
def ListedOutcome (status : Status) : Instr → Prop
  | .config _ _ _ _ _ _ => status = .ok ∨ status = .invalidParameter
  | .reset => status = .ok ∨ status = .refused
  | .process _ => status = .ok ∨ status = .invalidInput ∨ status = .refused
  | .checksum => status = .ok ∨ status = .refused

theorem result_outcome (i : Instr) (payload : List Element) (acc : Option Accumulator) :
    ListedOutcome (result i payload acc).2.status i := by
  obtain ⟨_, _, _, _, _, _, rfl, -, hr⟩ | ⟨_, rfl, -, hr⟩ | ⟨_, _, rfl, -, -, hr⟩ | ⟨_, rfl, -, hr⟩ |
    ⟨_, _, _, _, _, _, rfl, -, hr⟩ | ⟨_, _, rfl, -, -, hr⟩ | ⟨hi, -, hr⟩ := result_cases i payload acc <;> rw [hr]
  case inr.inr.inr.inr.inr.inr =>
    cases i with
    | config => exact absurd rfl (hi _ _ _ _ _ _)
    | reset => exact .inr rfl
    | process => exact .inr (.inr rfl)
    | checksum => exact .inr rfl
  all_goals simp [ListedOutcome]

/-- Every response but that of a CHECKSUM which is carried out has the value 0 (R70). -/
theorem checksum_of_result_value_ne_zero {i : Instr} {payload : List Element} {acc : Option Accumulator}
    (h : (result i payload acc).2.value ≠ 0) : i = .checksum ∧ (result i payload acc).2.status = .ok := by
  obtain ⟨_, _, _, _, _, _, -, -, hr⟩ | ⟨_, -, -, hr⟩ | ⟨_, _, -, -, -, hr⟩ | ⟨_, hi, -, hr⟩ |
    ⟨_, _, _, _, _, _, -, -, hr⟩ | ⟨_, _, -, -, -, hr⟩ | ⟨-, -, hr⟩ := result_cases i payload acc
  case inr.inr.inr.inl => exact ⟨hi, by rw [hr, respond_snd]⟩
  all_goals exact absurd (by rw [hr]; rfl) h

/-- A command completes, or faults for want of elements; it is never without a meaning (log entry 3). -/
theorem exec_ne_refused (i : Instr) (s : State) (why : Refusal) : exec i s ≠ .refused why := by
  cases hp : takePayload (elementsTaken s.acc i) s.datIn with
  | none => rw [exec_eq_fault hp]; nofun
  | some taken => rw [exec_eq_complete hp]; nofun

/-- Settles O50: the cases of `result_cases`, for the status and for the value. -/
theorem outcomesOfEachCommand : Obligations.OutcomesOfEachCommand := by
  refine ⟨fun i s t h => ?_, exec_ne_refused⟩
  obtain ⟨payload, rest, -, -, rfl⟩ := exec_next h
  exact ⟨_, rfl, rfl, result_outcome i payload s.acc, checksum_of_result_value_ne_zero⟩

/-! ### The handshake (R61) -/

/-- Elements are taken for a PROCESS with an accumulator alone (R61 step 2, R153). -/
theorem lt_elementsTaken_iff {acc : Option Accumulator} {i : Instr} {n : Nat} :
    n < elementsTaken acc i ↔ acc.isSome = true ∧ ∃ len, i = .process len ∧ n < len.toNat := by
  cases acc with
  | none => simp
  | some a => cases i <;> simp [Instr.payloadLength]

/-- The elements the block holds: fewer than its command takes while it waits for them, and exactly those while it
executes (R61 steps 2 and 3). -/
def Phase.HoldsItsElements (acc : Option Accumulator) : Phase → Prop
  | .idle => True
  | .collecting cw got => got.length < elementsTaken acc (decode cw)
  | .executing cw payload => payload.length = elementsTaken acc (decode cw)
  | .responding _ _ _ => True

theorem Phase.CarriesOut.holdsItsElements {before now : Option Accumulator} {phase : Phase}
    (h : phase.CarriesOut before now) : phase.HoldsItsElements now := by
  cases phase with
  | idle => trivial
  | collecting cw got => exact h.1 ▸ h.2
  | executing cw payload => exact h.1 ▸ h.2
  | responding cw payload r => trivial

theorem holding_holdsItsElements {acc : Option Accumulator} {cw : CommandWord} {got : List Element}
    (h : got.length ≤ elementsTaken acc (decode cw)) : (holding acc cw got).HoldsItsElements acc :=
  (holding_carriesOut h).holdsItsElements

theorem Wire.edge_holdsItsElements {w : Wire} (h : w.phase.HoldsItsElements w.acc) (inp : EdgeIn) :
    (w.edge inp).phase.HoldsItsElements (w.edge inp).acc := by
  cases hr : inp.rst with
  | true => rw [Wire.edge_rst hr]; trivial
  | false =>
    obtain ⟨acc, phase⟩ := w
    cases phase with
    | idle =>
      rw [Wire.edge_idle _ hr]
      split
      · exact holding_holdsItsElements (Nat.zero_le _)
      · trivial
    | collecting cw got =>
      have hlt : got.length < elementsTaken acc (decode cw) := h
      rw [Wire.edge_collecting _ hr]
      split
      · exact holding_holdsItsElements (by simpa using hlt)
      · exact h
    | executing cw payload =>
      rw [Wire.edge_executing _ hr]
      split
      · rw [Wire.execute_eq h]; trivial
      · exact h
    | responding cw payload r =>
      rw [Wire.edge_responding _ hr]
      split <;> trivial

/-- Settles O56: the statement's invariant is `Phase.HoldsItsElements`, which every edge keeps. -/
theorem handshakeTakesExactlyThePayload : Obligations.HandshakeTakesExactlyThePayload := by
  unfold Obligations.HandshakeTakesExactlyThePayload
  intro held
  have held_iff (w : Wire) : held w ↔ w.phase.HoldsItsElements w.acc := by
    obtain ⟨acc, phase⟩ := w
    cases phase with
    | collecting cw got => exact lt_elementsTaken_iff.symm
    | idle | executing | responding => exact Iff.rfl
  exact ⟨trivial, fun w inp h => (held_iff _).2 (Wire.edge_holdsItsElements ((held_iff w).1 h) inp)⟩

/-- Settles O57: the edge of a block that holds a response, with `rspReady` 0 and 1. -/
theorem responseIsHeldUntilTaken : Obligations.ResponseIsHeldUntilTaken := by
  intro w cw payload r h
  obtain ⟨acc, phase⟩ := w
  subst h
  refine ⟨rfl, fun inp hrst hready => ?held, fun inp hrst hready => ?taken⟩
  case held => rw [Wire.edge_responding _ hrst, hready]; rfl
  case taken => rw [Wire.edge_responding _ hrst, hready]; exact ⟨rfl, rfl⟩

/-! ### PROCESS lines of any length (R67, R75, R116) -/

theorem splitPayload_succ_of_long {elements : List Element} (h : Config.maxPayload < elements.length) (cuts : Nat) :
    splitPayload (cuts + 1) elements =
      elements.take Config.maxPayload :: splitPayload cuts (elements.drop Config.maxPayload) := by
  rw [splitPayload, if_neg (Nat.not_le_of_lt h)]

theorem splitPayload_of_short {elements : List Element} (h : elements.length ≤ Config.maxPayload) (cuts : Nat) :
    splitPayload cuts elements = [elements] := by
  cases cuts with
  | zero => rfl
  | succ cuts => rw [splitPayload, if_pos h]

theorem flatten_splitPayload (cuts : Nat) (elements : List Element) :
    (splitPayload cuts elements).flatten = elements := by
  induction cuts generalizing elements with
  | zero => exact List.append_nil _
  | succ cuts ih =>
    rcases Nat.lt_or_ge Config.maxPayload elements.length with h | h
    · rw [splitPayload_succ_of_long h, List.flatten_cons, ih, List.take_append_drop]
    · rw [splitPayload_of_short h, List.flatten_singleton]

theorem splitPayload_ne_nil (cuts : Nat) (elements : List Element) : splitPayload cuts elements ≠ [] := by
  cases cuts with
  | zero => nofun
  | succ cuts => rw [splitPayload]; split <;> nofun

/-- Every piece but the last is filled (log entry 15). -/
theorem length_of_mem_dropLast_splitPayload {cuts : Nat} {elements piece : List Element}
    (h : piece ∈ (splitPayload cuts elements).dropLast) : piece.length = Config.maxPayload := by
  induction cuts generalizing elements with
  | zero => cases h
  | succ cuts ih =>
    rcases Nat.lt_or_ge Config.maxPayload elements.length with hlong | hshort
    · rw [splitPayload_succ_of_long hlong, List.dropLast_cons_of_ne_nil (splitPayload_ne_nil _ _),
        List.mem_cons] at h
      obtain rfl | h := h
      · exact List.length_take_of_le (Nat.le_of_lt hlong)
      · exact ih h
    · rw [splitPayload_of_short hshort] at h
      cases h

/-- With as many cuts as elements no piece is longer than one PROCESS can announce (R75). -/
theorem length_le_of_mem_splitPayload {cuts : Nat} {elements piece : List Element} (hcuts : elements.length ≤ cuts)
    (h : piece ∈ splitPayload cuts elements) : piece.length ≤ Config.maxPayload := by
  induction cuts generalizing elements with
  | zero =>
    obtain rfl := List.mem_singleton.1 h
    exact Nat.le_trans hcuts (Nat.zero_le _)
  | succ cuts ih =>
    rcases Nat.lt_or_ge Config.maxPayload elements.length with hlong | hshort
    · rw [splitPayload_succ_of_long hlong, List.mem_cons] at h
      obtain rfl | h := h
      · exact List.length_take_le _ _
      · have hpos : 0 < Config.maxPayload := by decide
        exact ih (by rw [List.length_drop]; omega) h
    · rw [splitPayload_of_short hshort] at h
      obtain rfl := List.mem_singleton.1 h
      exact hshort

/-- The PROCESS command that carries this piece. -/
def processOf (piece : List Element) : Transaction := ⟨.process (BitVec.ofNat 16 piece.length), piece⟩

theorem assembleProcess_eq (elements : List Element) :
    assembleProcess elements = (splitPayload elements.length elements).map processOf := rfl

@[simp] theorem map_payload_processOf (pieces : List (List Element)) :
    ((pieces.map processOf).map fun t => t.payload) = pieces := by
  rw [List.map_map]
  exact List.map_id _

theorem payloads_assembleProcess (elements : List Element) :
    ((assembleProcess elements).map fun t => t.payload) = splitPayload elements.length elements :=
  map_payload_processOf _

theorem processOf_payloadLength {piece : List Element} (h : piece.length ≤ Config.maxPayload) :
    (processOf piece).instr.payloadLength = piece.length := by
  rw [processOf, Instr.payloadLength, BitVec.toNat_ofNat]
  exact Nat.mod_eq_of_lt (Nat.lt_succ_of_le h)

theorem wf_of_mem_assembleProcess {elements : List Element} {t : Transaction} (h : t ∈ assembleProcess elements) :
    t.wf = true ∧ t.payload.length ≤ Config.maxPayload := by
  rw [assembleProcess_eq] at h
  obtain ⟨piece, hp, rfl⟩ := List.mem_map.1 h
  have hlen := length_le_of_mem_splitPayload (Nat.le_refl _) hp
  exact ⟨beq_iff_eq.2 (processOf_payloadLength hlen).symm, hlen⟩

/-- What a PROCESS of one piece makes of the register: a piece with `NB` leaves it (R115, R116). -/
def foldPiece (c : Cfg) (table : Memory) (r : Word) (piece : List Element) : Word :=
  if piece.any elementNB then r else foldBytes c table r (piece.map elementByte)

/-- Its response (R115, R116). -/
def pieceResponse (piece : List Element) : Response := if piece.any elementNB then ⟨.invalidInput, 0⟩ else ⟨.ok, 0⟩

theorem result_processOf (a : Accumulator) (piece : List Element) :
    result (processOf piece).instr piece (some a) =
      (some { a with reg := foldPiece a.cfg a.table a.reg piece }, pieceResponse piece) := by
  rw [processOf, result, process, requireValid_some, foldPiece, pieceResponse]
  split <;> rfl

theorem step_processOf {piece : List Element} (h : piece.length ≤ Config.maxPayload) (a : Accumulator)
    (later : List HostInput) (rest : List Element) (rspOut : List Response) :
    step ⟨some a, .command (encode (processOf piece).instr) :: later, piece ++ rest, rspOut⟩ =
      .next ⟨some { a with reg := foldPiece a.cfg a.table a.reg piece }, later, rest,
        rspOut ++ [pieceResponse piece]⟩ := by
  have hlen : piece.length = elementsTaken (some a) (decode (encode (processOf piece).instr)) := by
    rw [decode_encode, elementsTaken_some, processOf_payloadLength h]
  rw [step_command_of_payload hlen, decode_encode, result_processOf]

/-- The PROCESS commands of a line run one after another, each on its own piece, whatever the host presents and offers
behind them (R75 (b)). -/
theorem run_processOf {pieces : List (List Element)} (h : ∀ p ∈ pieces, p.length ≤ Config.maxPayload) (a : Accumulator)
    (later : List HostInput) (rest : List Element) (rspOut : List Response) :
    run pieces.length
        ⟨some a, (pieces.map processOf).map (fun t => .command (encode t.instr)) ++ later, pieces.flatten ++ rest,
          rspOut⟩ =
      .next ⟨some { a with reg := pieces.foldl (foldPiece a.cfg a.table) a.reg }, later, rest,
        rspOut ++ pieces.map pieceResponse⟩ := by
  induction pieces generalizing a rspOut with
  | nil => simp [run]
  | cons piece pieces ih =>
    obtain ⟨hpiece, hpieces⟩ := List.forall_mem_cons.1 h
    simp only [List.map_cons, List.flatten_cons, List.cons_append, List.append_assoc, List.length_cons]
    rw [run_succ (step_processOf hpiece a _ _ rspOut), ih hpieces]
    simp

/-- A line's commands, presented to a configured block with empty channels. -/
theorem run_present_assembleProcess {s : State} {a : Accumulator} (elements : List Element) (hacc : s.acc = some a)
    (hcmd : s.cmdIn = []) (hdat : s.datIn = []) :
    run (splitPayload elements.length elements).length (s.present (assembleProcess elements)) =
      .next ⟨some { a with reg := (splitPayload elements.length elements).foldl (foldPiece a.cfg a.table) a.reg },
        [], [], s.rspOut ++ (splitPayload elements.length elements).map pieceResponse⟩ := by
  have hpieces : ∀ p ∈ splitPayload elements.length elements, p.length ≤ Config.maxPayload :=
    fun _ hp => length_le_of_mem_splitPayload (Nat.le_refl _) hp
  rw [← run_processOf hpieces a [] [] s.rspOut, State.present, hacc, hcmd, hdat, List.flatMap_def,
    payloads_assembleProcess, assembleProcess_eq]
  simp

theorem foldl_foldPiece_of_bytes {pieces : List (List Element)} (h : ∀ e ∈ pieces.flatten, elementNB e = false)
    (c : Cfg) (table : Memory) (r : Word) :
    pieces.foldl (foldPiece c table) r = foldBytes c table r (pieces.flatten.map elementByte) := by
  induction pieces generalizing r with
  | nil => rfl
  | cons piece pieces ih =>
    rw [List.flatten_cons, List.forall_mem_append] at h
    obtain ⟨hpiece, hpieces⟩ := h
    have hnb : piece.any elementNB = false := List.any_eq_false.2 (by simpa using hpiece)
    rw [List.foldl_cons, ih hpieces, foldPiece, hnb, List.flatten_cons, List.map_append, foldBytes_append]
    rfl

/-- Settles O60: the run of the pieces a line is cut into. -/
theorem longPayloadAnswersPieceByPiece : Obligations.LongPayloadAnswersPieceByPiece := by
  intro s a elements hacc hcmd hdat
  rw [payloads_assembleProcess]
  exact ⟨flatten_splitPayload _ _, fun _ => length_of_mem_dropLast_splitPayload, _,
    run_present_assembleProcess elements hacc hcmd hdat, rfl, rfl, rfl, rfl⟩

/-- Settles O15: the same run, with no piece failing, so that the folds of the pieces join to that of the message. -/
theorem longPayloadSplitsIntoCommands : Obligations.LongPayloadSplitsIntoCommands := by
  intro s a elements hacc hcmd hdat hbytes
  have hflat := flatten_splitPayload elements.length elements
  have hlength : (assembleProcess elements).length = (splitPayload elements.length elements).length :=
    List.length_map ..
  have hrun := run_present_assembleProcess elements hacc hcmd hdat
  rw [foldl_foldPiece_of_bytes (hflat.symm ▸ hbytes), hflat, ← hlength] at hrun
  refine ⟨fun _ => wf_of_mem_assembleProcess, ?order, _, hrun, rfl, rfl, rfl⟩
  case order => rw [List.flatMap_def, payloads_assembleProcess, hflat]

/-! ### The examples of R78 -/

/-- Settles O13: each line, word and response of R78, evaluated. -/
theorem encodingExamples : Obligations.EncodingExamples := by
  refine ⟨?lines, ?words⟩
  case lines =>
    dsimp only
    decide
  case words => decide

end Sys2Proof.Machine

/-! SUPPORT. The statements of 40_config.md and what rests on the same lemmas: the bit-serial reference, the table of
its entries, the table-driven fold, and the accumulator CONFIG constructs. -/

namespace Sys2Proof.Machine

/-! ### The reflected polynomial (R93) -/

/-- Settles O18: `prefl` is the bit reversal of the polynomial, read bit by bit as in R11. -/
theorem reflectedPolynomial : Obligations.ReflectedPolynomial :=
  ⟨fun c hc => ⟨fits_rev c.w c.poly, fun _ hi => getLsbD_rev_of_lt hc.width_le hi c.poly⟩,
    by decide, by decide, by decide, by decide⟩

/-! ### Masks and XOR -/

theorem ite_bne_eq_xor (p q : Bool) (v : Word) :
    (if (p ^^ q) = true then v else 0) = (if p = true then v else 0) ^^^ (if q = true then v else 0) := by
  cases p <;> cases q <;> simp

theorem and_mask_xor (n : Nat) (u v : Word) : (u ^^^ v) &&& mask n = (u &&& mask n) ^^^ (v &&& mask n) := by
  ext i hi
  simp only [BitVec.getElem_and, BitVec.getElem_xor, Bool.and_xor_distrib_right]

theorem getLsbD_and_mask (n : Nat) (v : Word) (i : Nat) :
    (v &&& mask n).getLsbD i = (decide (i < n) && v.getLsbD i) := by
  rw [BitVec.getLsbD_and, getLsbD_mask]
  rcases Nat.lt_or_ge i 64 with hi | hi
  · rw [decide_eq_true hi, Bool.true_and, Bool.and_comm]
  · simp [BitVec.getLsbD_of_ge v i hi]

/-- Bits shifted out of a masked register stay out. -/
theorem shiftLeft_and_mask (n k : Nat) (r : Word) :
    (((r <<< k) &&& mask n) <<< 1) &&& mask n = (r <<< (k + 1)) &&& mask n := by
  rw [BitVec.shiftLeft_add]
  refine BitVec.eq_of_getLsbD_eq fun i _ => ?_
  rw [getLsbD_and_mask, getLsbD_and_mask, BitVec.getLsbD_shiftLeft, BitVec.getLsbD_shiftLeft, getLsbD_and_mask]
  rcases Nat.lt_or_ge i n with hi | hi
  · simp [Nat.lt_of_le_of_lt (Nat.sub_le i 1) hi]
  · simp [Nat.not_lt.2 hi]

/-! ### One bit of the reference (R94, R95) -/

theorem stepMSB_eq_xor (c : Cfg) (r : Word) (d : Bool) :
    stepMSB c r d = ((r <<< 1) &&& mask c.w) ^^^ (if (r.getLsbD (c.w - 1) ^^ d) = true then c.poly else 0) := by
  unfold stepMSB
  split <;> simp

theorem stepLSB_eq_xor (c : Cfg) (r : Word) (d : Bool) :
    stepLSB c r d = (r >>> 1) ^^^ (if (r.getLsbD 0 ^^ d) = true then prefl c else 0) := by
  unfold stepLSB
  split <;> simp

/-- A data bit equal to the leaving bit only shifts the register. -/
theorem stepMSB_leaving_bit (c : Cfg) (r : Word) : stepMSB c r (r.getLsbD (c.w - 1)) = (r <<< 1) &&& mask c.w := by
  simp [stepMSB]

theorem stepLSB_leaving_bit (c : Cfg) (r : Word) : stepLSB c r (r.getLsbD 0) = r >>> 1 := by simp [stepLSB]

theorem fits_stepMSB {c : Cfg} (hc : c.Legal) (r : Word) (d : Bool) : fits c.w (stepMSB c r d) := by
  rw [stepMSB_eq_xor]
  refine fits_xor (fits_and_mask _ _) ?_
  split
  · exact hc.poly_fits
  · exact fits_zero _

theorem fits_stepLSB {c : Cfg} {r : Word} (hr : fits c.w r) (d : Bool) : fits c.w (stepLSB c r d) := by
  rw [stepLSB_eq_xor]
  refine fits_xor (fits_ushiftRight hr 1) ?_
  split
  · exact fits_rev _ _
  · exact fits_zero _

theorem fits_stepBit {c : Cfg} (hc : c.Legal) {r : Word} (hr : fits c.w r) (d : Bool) : fits c.w (stepBit c r d) := by
  cases h : c.refin with
  | true => rw [stepBit_of_refin h]; exact fits_stepLSB hr d
  | false => rw [stepBit_of_not_refin h]; exact fits_stepMSB hc r d

/-- A single-bit step is linear over GF(2) in the register and the data bit together. -/
theorem stepBit_xor (c : Cfg) (r s : Word) (d e : Bool) :
    stepBit c (r ^^^ s) (d ^^ e) = stepBit c r d ^^^ stepBit c s e := by
  have hbits : ∀ i, ((r ^^^ s).getLsbD i ^^ (d ^^ e)) = ((r.getLsbD i ^^ d) ^^ (s.getLsbD i ^^ e)) := fun i => by
    rw [BitVec.getLsbD_xor]
    simp only [Bool.xor_assoc, Bool.xor_left_comm]
  cases h : c.refin with
  | true =>
    simp only [stepBit_of_refin h, stepLSB_eq_xor]
    rw [hbits, ite_bne_eq_xor, BitVec.ushiftRight_xor_distrib]
    ac_rfl
  | false =>
    simp only [stepBit_of_not_refin h, stepMSB_eq_xor]
    rw [hbits, ite_bne_eq_xor, BitVec.shiftLeft_xor_distrib, and_mask_xor]
    ac_rfl

/-! ### One byte of the reference (R96) -/

theorem fits_foldBits {c : Cfg} (hc : c.Legal) {r : Word} (hr : fits c.w r) (b : Byte) : fits c.w (foldBits c r b) := by
  unfold foldBits
  induction bitOrder c.refin generalizing r with
  | nil => exact hr
  | cons k ks ih => exact ih (fits_stepBit hc hr _)

/-- Folding a byte is linear over GF(2) in the register and the byte together. -/
theorem foldBits_xor (c : Cfg) (r s : Word) (b d : Byte) :
    foldBits c (r ^^^ s) (b ^^^ d) = foldBits c r b ^^^ foldBits c s d := by
  unfold foldBits
  induction bitOrder c.refin generalizing r s with
  | nil => rfl
  | cons k ks ih =>
    rw [List.foldl_cons, BitVec.getLsbD_xor, stepBit_xor, ih]
    rfl

theorem foldBits_of_refin {c : Cfg} (h : c.refin = true) (r : Word) (b : Byte) :
    foldBits c r b = ((List.range 8).map fun k => b.getLsbD k).foldl (stepLSB c) r := by
  rw [foldBits_eq_foldl, stepBit_of_refin h, h]
  rfl

/-- The reflected fold with the polynomial reversed beforehand, which makes it cheap to evaluate. -/
theorem foldBits_of_prefl_eq {c : Cfg} (h : c.refin = true) {p : Word} (hp : prefl c = p) (r : Word) (b : Byte) :
    foldBits c r b = ((List.range 8).map fun k => b.getLsbD k).foldl
      (fun (r : Word) d => (r >>> 1) ^^^ (if (r.getLsbD 0 ^^ d) = true then p else 0)) r := by
  rw [foldBits_of_refin h, ← hp]
  congr 1
  funext r d
  exact stepLSB_eq_xor c r d

theorem foldBits_of_not_refin {c : Cfg} (h : c.refin = false) (r : Word) (b : Byte) :
    foldBits c r b = ((List.range 8).map fun k => b.getLsbD (7 - k)).foldl (stepMSB c) r := by
  rw [foldBits_eq_foldl, stepBit_of_not_refin h, h]
  rfl

/-- Settles O20: the folds over the bits in either order, written out, and the worked examples evaluated. -/
theorem foldBitsConsumesTheByteInOrder : Obligations.FoldBitsConsumesTheByteInOrder :=
  ⟨fun _ r b hc hr => ⟨fits_foldBits hc hr b, fun h => foldBits_of_not_refin h r b, fun h => foldBits_of_refin h r b⟩,
    by decide, by decide, by decide, by decide⟩

/-! ### The table (R34, R97, R105) -/

/-- Settles O6: a legal accumulator's table is the built one, and `buildTable` reads these three parameters alone. -/
theorem tableDependsOnThreeParameters : Obligations.TableDependsOnThreeParameters := by
  intro a b ha hb hw hp hr
  rw [ha.table_built, hb.table_built, buildTable_congr hw hp hr]

/-- R97: under legal parameters the mask of `MemWrite` takes nothing from an entry. -/
theorem memRead_buildTable_of_legal {c : Cfg} (hc : c.Legal) (i : Byte) :
    memRead (buildTable c) i = foldBits c 0 i := by
  rw [memRead_buildTable, and_mask_of_fits (fits_foldBits hc (fits_zero _) i)]

/-- Settles O26: each entry printed in R105, folded bit by bit. -/
theorem workedTableEntries : Obligations.WorkedTableEntries := by
  dsimp only [Obligations.WorkedTableEntries]
  simp only [List.map_cons, List.map_nil, memRead_buildTable]
  refine ⟨⟨?_, ?_, ?_, ?_⟩, ⟨?_, ?_⟩, ⟨?_, ?_, ?_, ?_⟩, ?wide, ?_⟩
  case wide =>
    obtain ⟨-, -, -, -, hprefl⟩ := reflectedPolynomial
    simp only [foldBits_of_prefl_eq rfl hprefl]
    decide
  all_goals decide

/-! ### The table-driven fold (R118 to R122) -/

/-- The part of a fold that reads no table: the register shifted by one byte. -/
def shiftByte (c : Cfg) (r : Word) : Word := if c.refin then r >>> 8 else (r <<< 8) &&& mask c.w

theorem foldTable_eq_xor (c : Cfg) (table : Memory) (r : Word) (b : Byte) :
    foldTable c table r b = shiftByte c r ^^^ memRead table (tableIndex c r b) := by
  cases h : c.refin <;> simp [foldTable, shiftByte, h, BitVec.xor_comm]

/-- The byte that leaves the register in a fold: its low byte (R118), its top byte (R119), or, of a register narrower
than a byte, its bits at the top of the byte (R120). -/
def leavingByte (c : Cfg) (r : Word) : Byte :=
  if c.refin then r.setWidth 8
  else if 8 ≤ c.w then (r >>> (c.w - 8)).setWidth 8
  else (r <<< (8 - c.w)).setWidth 8

theorem setWidth_and_byteMask (v : Word) : (v &&& 0xFF#64).setWidth 8 = v.setWidth 8 := by
  ext i hi
  have h64 : i < 64 := by omega
  rw [show 0xFF#64 = mask 8 from rfl]
  simp [h64, hi, ← BitVec.getLsbD_eq_getElem]

/-- The table index is the byte that leaves the register XORed with the input byte. -/
theorem tableIndex_eq_xor (c : Cfg) (r : Word) (b : Byte) : tableIndex c r b = leavingByte c r ^^^ b := by
  have hbyte : (b.setWidth 64).setWidth 8 = b := by simp
  unfold tableIndex leavingByte
  split
  · rw [setWidth_and_byteMask, BitVec.setWidth_xor, hbyte]
  · dsimp only
    split <;> simp only [setWidth_and_byteMask, BitVec.setWidth_xor, hbyte]

theorem getLsbD_leavingByte_of_refin {c : Cfg} (h : c.refin = true) (r : Word) {k : Nat} (hk : k < 8) :
    (leavingByte c r).getLsbD k = r.getLsbD k := by
  simp [leavingByte, h, hk]

theorem getLsbD_leavingByte_of_not_refin {c : Cfg} (h : c.refin = false) (hpos : 1 ≤ c.w) (r : Word) {k : Nat}
    (hk : k < 8) :
    (leavingByte c r).getLsbD (7 - k) = (decide (k < c.w) && r.getLsbD (c.w - 1 - k)) := by
  have h8 : 7 - k < 8 := by omega
  simp only [leavingByte, h, Bool.false_eq_true, if_false]
  split
  case isTrue hw =>
    have hbit : c.w - 8 + (7 - k) = c.w - 1 - k := by omega
    have hkw : k < c.w := by omega
    simp [h8, hkw, hbit]
  case isFalse hw =>
    have h64 : 7 - k < 64 := by omega
    rw [BitVec.getLsbD_setWidth, BitVec.getLsbD_shiftLeft]
    rcases Nat.lt_or_ge k c.w with hkw | hkw
    · have hbit : 7 - k - (8 - c.w) = c.w - 1 - k := by omega
      have hin : ¬ 7 - k < 8 - c.w := by omega
      simp [h8, h64, hkw, hbit, hin]
    · have hout : 7 - k < 8 - c.w := by omega
      simp [hout, Nat.not_lt.2 hkw]

/-- Feeding a register its own low bits shifts them out. -/
theorem foldl_stepLSB_own_bits (c : Cfg) (r : Word) (n : Nat) :
    ((List.range n).map fun k => r.getLsbD k).foldl (stepLSB c) r = r >>> n := by
  induction n with
  | zero => simp
  | succ n ih =>
    have hbit : r.getLsbD n = (r >>> n).getLsbD 0 := by simp
    rw [List.range_succ, List.map_append, List.map_singleton, List.foldl_concat, ih, hbit,
      stepLSB_leaving_bit, BitVec.shiftRight_add]

/-- Feeding a W-bit register its own top bits shifts them out. -/
theorem foldl_stepMSB_own_bits {c : Cfg} (hc : c.Legal) {r : Word} (hr : fits c.w r) (n : Nat) :
    ((List.range n).map fun k => decide (k < c.w) && r.getLsbD (c.w - 1 - k)).foldl (stepMSB c) r =
      (r <<< n) &&& mask c.w := by
  have hpos := hc.width_pos
  have hle : c.w ≤ 64 := hc.width_le
  induction n with
  | zero => simpa using (and_mask_of_fits hr).symm
  | succ n ih =>
    have hbit : (decide (n < c.w) && r.getLsbD (c.w - 1 - n)) = ((r <<< n) &&& mask c.w).getLsbD (c.w - 1) := by
      rw [getLsbD_and_mask, BitVec.getLsbD_shiftLeft]
      rcases Nat.lt_or_ge n c.w with hn | hn
      · have hin : ¬ c.w - 1 < n := by omega
        have htop : c.w - 1 < c.w ∧ c.w - 1 < 64 := by omega
        simp [hn, hin, htop]
      · have hout : c.w - 1 < n := by omega
        simp [hout, Nat.not_lt.2 hn]
    rw [List.range_succ, List.map_append, List.map_singleton, List.foldl_concat, ih, hbit,
      stepMSB_leaving_bit, shiftLeft_and_mask]

/-- A fold of the byte that leaves the register only shifts it. -/
theorem foldBits_leaving_byte {c : Cfg} (hc : c.Legal) {r : Word} (hr : fits c.w r) :
    foldBits c r (leavingByte c r) = shiftByte c r := by
  cases h : c.refin with
  | true =>
    have hbits := List.map_congr_left fun k hk => getLsbD_leavingByte_of_refin h r (List.mem_range.1 hk)
    rw [foldBits_of_refin h, hbits, foldl_stepLSB_own_bits, shiftByte, if_pos h]
  | false =>
    have hbits := List.map_congr_left fun k hk =>
      getLsbD_leavingByte_of_not_refin h hc.width_pos r (List.mem_range.1 hk)
    rw [foldBits_of_not_refin h, hbits, foldl_stepMSB_own_bits hc hr, shiftByte, if_neg (by simp [h])]

/-- R122, by linearity: a fold is that of the leaving byte, which only shifts, XORed with a table entry. -/
theorem foldTable_eq_foldBits {c : Cfg} (hc : c.Legal) {r : Word} (hr : fits c.w r) (b : Byte) :
    foldTable c (buildTable c) r b = foldBits c r b := by
  have hbyte : leavingByte c r ^^^ tableIndex c r b = b := by
    rw [tableIndex_eq_xor c r b, ← BitVec.xor_assoc, BitVec.xor_self, BitVec.zero_xor]
  calc foldTable c (buildTable c) r b
      = shiftByte c r ^^^ foldBits c 0 (tableIndex c r b) := by
        rw [foldTable_eq_xor, memRead_buildTable_of_legal hc]
    _ = foldBits c r (leavingByte c r) ^^^ foldBits c 0 (tableIndex c r b) := by rw [foldBits_leaving_byte hc hr]
    _ = foldBits c r b := by rw [← foldBits_xor, hbyte, show r ^^^ 0 = r from BitVec.xor_zero]

/-- Settles O32, by `foldTable_eq_foldBits`. -/
theorem tableFoldEqualsBitSerialFold : Obligations.TableFoldEqualsBitSerialFold :=
  fun _ _ b hc hr => foldTable_eq_foldBits hc hr b

/-! ### CONFIG (R90 to R92, R97 to R101) -/

/-- A CONFIG of a width outside 1..64 (R91, R100). -/
theorem exec_config_illegal {width : BitVec 8} (h : widthLegal width = false) (poly init : Word) (refin refout : Bool)
    (xorout : Word) (s : State) :
    exec (.config width poly init refin refout xorout) s =
      .next { s with rspOut := s.rspOut ++ [⟨.invalidParameter, 0⟩] } := by
  simp [exec, execConfig, config, h, complete]

/-- RESET leaves a seeded accumulator as it stands (R99, R110). -/
theorem exec_reset_seeded {s : State} {c : Cfg} (h : s.acc = some (seeded c)) :
    exec .reset s = .next { s with rspOut := s.rspOut ++ [⟨.ok, 0⟩] } := by
  obtain ⟨acc, cmdIn, datIn, rspOut⟩ := s
  obtain rfl : acc = some (seeded c) := h
  rfl

/-- Settles O21: the accumulator is the seeded one of the masked operands. -/
theorem configConstructsTheAccumulator : Obligations.ConfigConstructsTheAccumulator := by
  refine ⟨fun width poly init refin refout xorout s => ⟨fun hpos hle => ?legal, fun hw => ?illegal⟩, fun s => ?arc⟩
  case legal =>
    have hw := (widthLegal_iff width).2 ⟨hpos, hle⟩
    refine ⟨_, exec_config_legal hw poly init refin refout xorout s, maskedCfg_w hle .., rfl, rfl, rfl, rfl, rfl, rfl,
      buildTable_wf _, fun i => ⟨?entry, fits_memRead_buildTable _ i⟩⟩
    case entry => exact memRead_buildTable_of_legal (maskedCfg_legal hw poly init refin refout xorout) i
  case illegal =>
    refine exec_config_illegal ?_ poly init refin refout xorout s
    rw [← Bool.not_eq_true, widthLegal_iff]
    omega
  case arc =>
    refine ⟨_, exec_config_legal (by decide) .., by decide, by decide, ?_⟩
    simp only [seeded_table, memRead_buildTable]
    decide

/-- Settles O22: each operand is stored through the mask of `WIDTH` bits. -/
theorem configMasksItsOperands : Obligations.ConfigMasksItsOperands := by
  refine ⟨fun width poly init refin refout xorout s hpos hle => ?masks, fun s => ?first, fun s => ?second⟩
  case masks =>
    refine ⟨_, _, exec_config_legal ((widthLegal_iff width).2 ⟨hpos, hle⟩) poly init refin refout xorout s, rfl, rfl,
      fun i => ⟨getLsbD_and_mask _ _ i, getLsbD_and_mask _ _ i, getLsbD_and_mask _ _ i⟩, fun h64 => ?_⟩
    have hkeep : ∀ v : Word, v &&& mask width.toNat = v := fun v => and_mask_of_fits (by rw [h64]; exact v.isLt)
    exact ⟨hkeep poly, hkeep init, hkeep xorout⟩
  case first => exact ⟨_, _, exec_config_legal (by decide) .., rfl, by decide, by decide, by decide⟩
  case second => exact ⟨_, _, exec_config_legal (by decide) .., rfl, by decide⟩

/-- Settles O23: CONFIG leaves a seeded accumulator, and RESET seeds it again. -/
theorem configSeedsTheRegister : Obligations.ConfigSeedsTheRegister := by
  intro width poly init refin refout xorout s hpos hle
  exact ⟨_, _, exec_config_legal ((widthLegal_iff width).2 ⟨hpos, hle⟩) poly init refin refout xorout s, rfl, rfl, rfl,
    exec_reset_seeded rfl⟩

end Sys2Proof.Machine

/-! SUPPORT. The statements of 41_reset.md: what RESET leaves, and what any commands that construct nothing leave of the
accumulator. -/

namespace Sys2Proof.Machine

/-! ### RESET and PROCESS on a configured block (R110, R115) -/

theorem exec_reset_of_acc {s : State} {a : Accumulator} (h : s.acc = some a) :
    exec .reset s =
      .next { s with acc := some { a with reg := a.cfg.init }, rspOut := s.rspOut ++ [⟨.ok, 0⟩] } := by
  simp [exec, execReset, reseed, complete, h]

theorem exec_reset_of_no_acc {s : State} (h : s.acc = none) :
    exec .reset s = .next { s with rspOut := s.rspOut ++ [⟨.refused, 0⟩] } := by
  simp [exec, execReset, reseed, complete, h]

/-- A PROCESS that finds its `LEN` elements at the head of the data channel, every one of them a byte. -/
theorem exec_process_of_bytes {s : State} {a : Accumulator} {len : Config.Length} {payload rest : List Element}
    (ha : s.acc = some a) (hdat : s.datIn = payload ++ rest) (hlen : payload.length = len.toNat)
    (hbytes : payload.any elementNB = false) :
    exec (.process len) s =
      .next { s with
        acc := some { a with reg := foldBytes a.cfg a.table a.reg (payload.map elementByte) }
        datIn := rest
        rspOut := s.rspOut ++ [⟨.ok, 0⟩] } := by
  have htake : takePayload (elementsTaken s.acc (.process len)) s.datIn = some (payload, rest) := by
    rw [ha, hdat, elementsTaken_some, Instr.payloadLength, ← hlen, takePayload_append]
  rw [exec_eq_complete htake, ha, result, process, requireValid_some, hbytes]
  rfl

/-- The table of a legal configuration folds bytes as the bit-serial reference does (R122, R124). -/
theorem foldBytes_buildTable_eq_foldl {c : Cfg} (hc : c.Legal) {r : Word} (hr : fits c.w r) (bytes : List Byte) :
    foldBytes c (buildTable c) r bytes = bytes.foldl (foldBits c) r := by
  induction bytes generalizing r with
  | nil => rfl
  | cons b bytes ih =>
    rw [foldBytes_cons, foldTable_eq_foldBits hc hr, ih (fits_foldBits hc hr b), List.foldl_cons]

/-- The configuration of R110's example. -/
def exampleCfg : Cfg := ⟨16#7, 0x1021#64, 0xFFFF#64, false, false, 0#64⟩

theorem exampleCfg_legal : exampleCfg.Legal := by constructor <;> decide

theorem exec_config_exampleCfg (s : State) :
    exec (.config 16#8 0x1021#64 0xFFFF#64 false false 0#64) s =
      .next { s with acc := some (seeded exampleCfg), rspOut := s.rspOut ++ [⟨.ok, 0⟩] } := by
  have hcfg : maskedCfg 16#8 0x1021#64 0xFFFF#64 false false 0#64 = exampleCfg := by decide
  rw [exec_config_legal (by decide), hcfg]

/-- The register after each byte of "123456789", from the seed on. -/
theorem foldBits_exampleCfg_digits :
    foldBits exampleCfg 0xFFFF#64 0x31#8 = 0xC782#64 ∧
    foldBits exampleCfg 0xC782#64 0x32#8 = 0x3DBA#64 ∧
    foldBits exampleCfg 0x3DBA#64 0x33#8 = 0x5BCE#64 ∧
    foldBits exampleCfg 0x5BCE#64 0x34#8 = 0x5349#64 ∧
    foldBits exampleCfg 0x5349#64 0x35#8 = 0x4560#64 ∧
    foldBits exampleCfg 0x4560#64 0x36#8 = 0x2EF4#64 ∧
    foldBits exampleCfg 0x2EF4#64 0x37#8 = 0x7718#64 ∧
    foldBits exampleCfg 0x7718#64 0x38#8 = 0xA12B#64 ∧
    foldBits exampleCfg 0xA12B#64 0x39#8 = 0x29B1#64 := by decide

theorem foldBytes_exampleCfg_digits :
    foldBytes exampleCfg (buildTable exampleCfg) 0xFFFF#64
      [0x31#8, 0x32#8, 0x33#8, 0x34#8, 0x35#8, 0x36#8, 0x37#8, 0x38#8, 0x39#8] = 0x29B1#64 := by
  have hseed : fits exampleCfg.w 0xFFFF#64 := exampleCfg_legal.init_fits
  rw [foldBytes_buildTable_eq_foldl exampleCfg_legal hseed]
  simp only [List.foldl_cons, List.foldl_nil, foldBits_exampleCfg_digits]

/-- Settles O27: the two outcomes of RESET, and the run of R110's example. -/
theorem resetReseedsTheRegister : Obligations.ResetReseedsTheRegister :=
  ⟨fun _ _ h => exec_reset_of_acc h, fun _ h => exec_reset_of_no_acc h,
    _, _, _, _, _, exec_config_exampleCfg _, exec_process_of_bytes rfl (List.append_nil _).symm rfl (by decide), rfl,
    foldBytes_exampleCfg_digits, exec_reset_of_acc rfl, rfl, rfl⟩

/-! ### Commands that construct nothing leave everything but `REG` (R111) -/

theorem step_cmdIn {s t : State} (h : step s = .next t) : t.cmdIn = s.cmdIn.tail := by
  obtain ⟨hc, rfl⟩ | ⟨cw, later, hc, he⟩ | ⟨later, hc, rfl⟩ | ⟨cw, taken, later, hc, rfl⟩ := step_next_cases h
  · rw [hc, List.tail_nil]
  · rw [hc, List.tail_cons]
    exact (exec_channels he rfl).1
  · rw [hc, hardReset_cmdIn, List.tail_cons]
  · rw [hc, abandonCommand_cmdIn, List.tail_cons]

/-- A command word, and not one that constructs an accumulator: no CONFIG, or a CONFIG of a width outside 1..64. -/
def HostInput.ConstructsNothing (input : HostInput) : Prop :=
  ∃ cw, input = .command cw ∧ (cw.op ≠ 0b00#2 ∨ cw.width.toNat = 0 ∨ 65 ≤ cw.width.toNat)

theorem exec_writes_reg_only {cw : CommandWord} {s t : State} {a : Accumulator}
    (hcw : HostInput.ConstructsNothing (.command cw)) (h : exec (decode cw) s = .next t) (ha : s.acc = some a) :
    ∃ r, t.acc = some { a with reg := r } := by
  obtain ⟨width, _, _, _, _, _, hi, hw, -⟩ | ⟨b, r, hb, -, ht⟩ | ht := exec_acc_cases h
  · obtain ⟨_, ⟨⟩, hnone⟩ := hcw
    obtain ⟨hop, rfl⟩ := op_and_width_of_decode_eq_config hi
    obtain ⟨hpos, hle⟩ := (widthLegal_iff _).1 hw
    have hwidth := hnone.resolve_left (not_not_intro hop)
    omega
  · obtain rfl : a = b := Option.some.inj (ha.symm.trans hb)
    exact ⟨r, ht⟩
  · exact ⟨a.reg, ht.trans ha⟩

theorem step_writes_reg_only {s t : State} {a : Accumulator}
    (hin : ∀ input ∈ s.cmdIn.take 1, input.ConstructsNothing) (h : step s = .next t) (ha : s.acc = some a) :
    ∃ r, t.acc = some { a with reg := r } := by
  obtain ⟨-, rfl⟩ | ⟨cw, later, hc, he⟩ | ⟨later, hc, -⟩ | ⟨cw, taken, later, hc, -⟩ := step_next_cases h
  · exact ⟨a.reg, ha⟩
  · exact exec_writes_reg_only (hin _ (by simp [hc])) he ha
  · obtain ⟨_, ⟨⟩, -⟩ := hin .rst (by simp [hc])
  · obtain ⟨_, ⟨⟩, -⟩ := hin (.rstDuring cw taken) (by simp [hc])

theorem run_writes_reg_only {n : Nat} {s t : State} {a : Accumulator}
    (hin : ∀ input ∈ s.cmdIn.take n, input.ConstructsNothing) (h : run n s = .next t) (ha : s.acc = some a) :
    ∃ r, t.acc = some { a with reg := r } := by
  induction n generalizing s a with
  | zero =>
    obtain rfl : s = t := Host.Outcome.next.inj h
    exact ⟨a.reg, ha⟩
  | succ n ih =>
    cases hs : step s with
    | fault f => simp [run, hs] at h
    | refused why => simp [run, hs] at h
    | next u =>
      rw [run_succ hs] at h
      rw [Nat.add_comm, List.take_add, List.forall_mem_append, List.drop_one, ← step_cmdIn hs] at hin
      obtain ⟨hfirst, hlater⟩ := hin
      obtain ⟨r, hu⟩ := step_writes_reg_only hfirst hs ha
      obtain ⟨last, ht⟩ := ih hlater h hu
      exact ⟨last, ht⟩

/-- Settles O28: RESET writes `REG` alone, from the configuration, and so undoes what the commands since the CONFIG
wrote. -/
theorem resetErasesTheHistory : Obligations.ResetErasesTheHistory := by
  refine ⟨fun s a ha => ?idempotent, fun c n s t hs hin hrun => ?erases⟩
  case idempotent => exact ⟨_, _, _, exec_reset_of_acc ha, rfl, rfl, exec_reset_of_acc rfl, rfl⟩
  case erases =>
    obtain ⟨r, ht⟩ := run_writes_reg_only hin hrun hs
    exact ⟨_, exec_reset_of_acc ht, rfl⟩

end Sys2Proof.Machine

/-! SUPPORT. The statements of 42_process.md on PROCESS and its fold: the outcomes of PROCESS, the fold over unbounded
numbers, split messages, and the worked trace. -/

namespace Sys2Proof.Machine

/-! ### The worked examples' configurations (R115, R125, R129) -/

/-- The configuration of R129's reflected trace, CRC-16/ARC. -/
def arcCfg : Cfg := ⟨16#7, 0x8005#64, 0#64, true, false, 0#64⟩

/-- The configuration of R129's non-reflected trace, CRC-16/XMODEM. -/
def xmodemCfg : Cfg := ⟨16#7, 0x1021#64, 0#64, false, false, 0#64⟩

theorem arcCfg_legal : arcCfg.Legal := by constructor <;> decide

theorem xmodemCfg_legal : xmodemCfg.Legal := by constructor <;> decide

/-- The register after each byte of "123456789", from zero on. -/
theorem foldBits_arcCfg_digits :
    foldBits arcCfg 0x0000#64 0x31#8 = 0xD4C1#64 ∧
    foldBits arcCfg 0xD4C1#64 0x32#8 = 0x4594#64 ∧
    foldBits arcCfg 0x4594#64 0x33#8 = 0xBA04#64 ∧
    foldBits arcCfg 0xBA04#64 0x34#8 = 0x14BA#64 ∧
    foldBits arcCfg 0x14BA#64 0x35#8 = 0xA455#64 ∧
    foldBits arcCfg 0xA455#64 0x36#8 = 0x29E4#64 ∧
    foldBits arcCfg 0x29E4#64 0x37#8 = 0x9D68#64 ∧
    foldBits arcCfg 0x9D68#64 0x38#8 = 0x3C9D#64 ∧
    foldBits arcCfg 0x3C9D#64 0x39#8 = 0xBB3D#64 := by decide

theorem foldBits_xmodemCfg_digits :
    foldBits xmodemCfg 0x0000#64 0x31#8 = 0x2672#64 ∧
    foldBits xmodemCfg 0x2672#64 0x32#8 = 0x20B5#64 ∧
    foldBits xmodemCfg 0x20B5#64 0x33#8 = 0x9752#64 ∧
    foldBits xmodemCfg 0x9752#64 0x34#8 = 0xD789#64 ∧
    foldBits xmodemCfg 0xD789#64 0x35#8 = 0x546C#64 ∧
    foldBits xmodemCfg 0x546C#64 0x36#8 = 0x20E4#64 ∧
    foldBits xmodemCfg 0x20E4#64 0x37#8 = 0x86D6#64 ∧
    foldBits xmodemCfg 0x86D6#64 0x38#8 = 0x9015#64 ∧
    foldBits xmodemCfg 0x9015#64 0x39#8 = 0x31C3#64 := by decide

/-- Through its table a legal configuration passes the registers of the bit-serial reference (R122). -/
theorem scanl_foldTable_buildTable {c : Cfg} (hc : c.Legal) {r : Word} (hr : fits c.w r) (bytes : List Byte) :
    bytes.scanl (foldTable c (buildTable c)) r = bytes.scanl (foldBits c) r := by
  induction bytes generalizing r with
  | nil => rfl
  | cons b bytes ih =>
    rw [List.scanl_cons, List.scanl_cons, foldTable_eq_foldBits hc hr, ih (fits_foldBits hc hr b)]

/-- Settles O39: each trace is that of the bit-serial reference, one fold per byte. -/
theorem workedTrace : Obligations.WorkedTrace := by
  refine ⟨?arc, ?xmodem, by decide, ?arcEntry, by decide, ?xmodemEntry⟩
  case arc =>
    have hseed : fits arcCfg.w 0x0000#64 := fits_zero _
    refine (scanl_foldTable_buildTable arcCfg_legal hseed _).trans ?_
    simp only [List.scanl_cons, List.scanl_nil, foldBits_arcCfg_digits]
  case xmodem =>
    have hseed : fits xmodemCfg.w 0x0000#64 := fits_zero _
    refine (scanl_foldTable_buildTable xmodemCfg_legal hseed _).trans ?_
    simp only [List.scanl_cons, List.scanl_nil, foldBits_xmodemCfg_digits]
  case arcEntry => exact (memRead_buildTable arcCfg _).trans (by decide)
  case xmodemEntry => exact (memRead_buildTable xmodemCfg _).trans (by decide)

/-- Settles O35: the fold is from the left; the bit-serial reference gives the register of each order. -/
theorem orderOfBytesMatters : Obligations.OrderOfBytesMatters := by
  have hseed : fits arcCfg.w 0x0000#64 := fits_zero _
  refine ⟨foldBytes_cons, ?inOrder, ?swapped⟩
  case inOrder =>
    refine (foldBytes_buildTable_eq_foldl arcCfg_legal hseed _).trans ?_
    simp only [List.foldl_cons, List.foldl_nil, foldBits_arcCfg_digits]
  case swapped =>
    have hfirst : foldBits arcCfg 0x0000#64 0x32#8 = 0xD581#64 := by decide
    have hsecond : foldBits arcCfg 0xD581#64 0x31#8 = 0xB4D4#64 := by decide
    refine (foldBytes_buildTable_eq_foldl arcCfg_legal hseed _).trans ?_
    rw [List.foldl_cons, List.foldl_cons, List.foldl_nil, hfirst, hsecond]

/-! ### The outcomes of PROCESS and CHECKSUM (R115 to R117, R140, R153) -/

theorem exec_process_of_no_acc {s : State} (h : s.acc = none) (len : Config.Length) :
    exec (.process len) s = .next { s with rspOut := s.rspOut ++ [⟨.refused, 0⟩] } := by
  have htake : takePayload (elementsTaken s.acc (.process len)) s.datIn = some ([], s.datIn) := by
    rw [h, elementsTaken_none, takePayload]
  rw [exec_eq_complete htake, h, result, process, requireValid_none, complete, raise_fst, raise_snd, ← h]

/-- A PROCESS that finds its `LEN` elements at the head of the data channel, not every one of them a byte. -/
theorem exec_process_of_nb {s : State} {a : Accumulator} {len : Config.Length} {payload rest : List Element}
    (ha : s.acc = some a) (hdat : s.datIn = payload ++ rest) (hlen : payload.length = len.toNat)
    (hnb : payload.any elementNB = true) :
    exec (.process len) s = .next { s with datIn := rest, rspOut := s.rspOut ++ [⟨.invalidInput, 0⟩] } := by
  have htake : takePayload (elementsTaken s.acc (.process len)) s.datIn = some (payload, rest) := by
    rw [ha, hdat, elementsTaken_some, Instr.payloadLength, ← hlen, takePayload_append]
  rw [exec_eq_complete htake, ha, result, process, requireValid_some, hnb, if_pos rfl, complete, raise_fst, raise_snd,
    ← ha]

theorem exec_process_zero {s : State} {a : Accumulator} (h : s.acc = some a) :
    exec (.process 0#16) s = .next { s with rspOut := s.rspOut ++ [⟨.ok, 0⟩] } := by
  rw [exec_process_of_bytes h (payload := []) (rest := s.datIn) rfl rfl rfl, List.map_nil, foldBytes_nil, ← h]

theorem exec_checksum_of_acc {s : State} {a : Accumulator} (h : s.acc = some a) :
    exec .checksum s = .next { s with rspOut := s.rspOut ++ [⟨.ok, outFn a.cfg a.reg⟩] } := by
  simp [exec, execChecksum, checksum, complete, h]

theorem any_elementNB_of_bytes {payload : List Element} (h : ∀ e ∈ payload, elementNB e = false) :
    payload.any elementNB = false := by
  simpa using h

theorem exec_config_arcCfg (s : State) :
    exec (.config 16#8 0x8005#64 0#64 true false 0#64) s =
      .next { s with acc := some (seeded arcCfg), rspOut := s.rspOut ++ [⟨.ok, 0⟩] } := by
  have hcfg : maskedCfg 16#8 0x8005#64 0#64 true false 0#64 = arcCfg := by decide
  rw [exec_config_legal (by decide), hcfg]

/-- Settles O29: one lemma for each outcome, and the run of R115's example. -/
theorem processFoldsItsPayload : Obligations.ProcessFoldsItsPayload := by
  refine ⟨fun s len h => exec_process_of_no_acc h len, fun s a len payload rest ha hdat hlen => ⟨?nb, ?bytes⟩, ?arc⟩
  case nb => exact fun hnb => exec_process_of_nb ha hdat hlen (List.any_eq_true.2 hnb)
  case bytes => exact fun hbytes => exec_process_of_bytes ha hdat hlen (any_elementNB_of_bytes hbytes)
  case arc =>
    obtain ⟨hfirst, -⟩ := foldBits_arcCfg_digits
    exact ⟨_, _, _, exec_config_arcCfg _, exec_process_of_bytes rfl (List.append_nil _).symm rfl (by decide), rfl,
      (foldTable_eq_foldBits arcCfg_legal (fits_zero _) _).trans hfirst⟩

/-! ### The empty payload (R117) -/

/-- Without a final XOR the output of the zero register is zero, reversed or not (R141). -/
theorem outFn_zero {c : Cfg} (hw : c.w ≤ 64) (hx : c.xorout = 0) : outFn c 0 = 0 := by
  have hrev : (if c.refout then rev c.w 0 else 0) = 0 := by rw [rev_zero hw, ite_self]
  rw [outFn, hrev, hx]
  exact BitVec.zero_and

/-- Settles O30: folding nothing leaves the zero seed, whose output is zero. -/
theorem emptyPayloadIsANoOp : Obligations.EmptyPayloadIsANoOp := by
  refine ⟨fun s a ha => exec_process_zero ha, fun width poly refin refout s hpos hle => ?vector⟩
  have hconfig := exec_config_legal ((widthLegal_iff width).2 ⟨hpos, hle⟩) poly 0 refin refout 0 s
  have hwidth : (maskedCfg width poly 0 refin refout 0).w ≤ 64 := (maskedCfg_w hle ..).trans_le hle
  have hinit : (maskedCfg width poly 0 refin refout 0).init = 0 := BitVec.zero_and
  have hxorout : (maskedCfg width poly 0 refin refout 0).xorout = 0 := BitVec.zero_and
  refine ⟨_, _, _, hconfig, exec_process_zero rfl, exec_checksum_of_acc rfl, ?_⟩
  rw [seeded_cfg, seeded_reg, hinit, outFn_zero hwidth hxorout]

/-! ### Split messages (R124) -/

/-- Settles O34: RESET seeds `REG`, and the two PROCESS commands fold into it what the one folds. -/
theorem splittingAMessageChangesNothing : Obligations.SplittingAMessageChangesNothing := by
  refine ⟨foldBytes_append, fun s a n b rest ha hlen hdat hbytes => ?one, ?split⟩
  case one => exact ⟨_, exec_process_of_bytes ha hdat hlen (any_elementNB_of_bytes hbytes), rfl⟩
  case split =>
    intro s a n1 n2 b1 b2 rest ha hlen1 hlen2 hsum hdat hbytes
    obtain ⟨hbytes1, hbytes2⟩ := List.forall_mem_append.1 hbytes
    have hlen : (b1 ++ b2).length = (n1 + n2).toNat := by
      rw [List.length_append, hlen1, hlen2, BitVec.toNat_add_of_lt (by omega)]
    have hfold :
        foldBytes a.cfg a.table (foldBytes a.cfg a.table a.cfg.init (b1.map elementByte)) (b2.map elementByte) =
          foldBytes a.cfg a.table a.cfg.init ((b1 ++ b2).map elementByte) := by
      rw [List.map_append, foldBytes_append]
    have hdat1 : s.datIn = b1 ++ (b2 ++ rest) := hdat.trans (List.append_assoc ..)
    refine ⟨_, _, _, _, _, _, exec_reset_of_acc ha,
      exec_process_of_bytes rfl hdat1 hlen1 (any_elementNB_of_bytes hbytes1),
      exec_process_of_bytes rfl rfl hlen2 (any_elementNB_of_bytes hbytes2),
      exec_process_of_bytes rfl hdat hlen (any_elementNB_of_bytes hbytes), ?_, ?_, rfl, rfl,
      exec_checksum_of_acc rfl, exec_checksum_of_acc rfl, _, rfl, ?_⟩
    all_goals simp only [hfold]

/-! ### The fold over unbounded numbers (R118, R119, R121) -/

theorem ofNat_xor_and_byteMask (n : Nat) (b : Byte) :
    BitVec.ofNat 8 ((n ^^^ b.toNat) &&& 0xFF) = BitVec.ofNat 8 n ^^^ b := by
  apply BitVec.eq_of_toNat_eq
  have hmask : ∀ m : Nat, m &&& 0xFF = m % 2 ^ 8 := fun m => Nat.and_two_pow_sub_one_eq_mod m 8
  rw [hmask, BitVec.toNat_ofNat, Nat.mod_mod, BitVec.toNat_xor, BitVec.toNat_ofNat, Nat.xor_mod_two_pow,
    BitVec.toNat_mod_cancel]

/-- The index of a fold, once the byte that leaves the register is known as a number. -/
theorem tableIndex_eq_ofNat {c : Cfg} {r : Word} {n : Nat} (h : leavingByte c r = BitVec.ofNat 8 n) (b : Byte) :
    tableIndex c r b = BitVec.ofNat 8 ((n ^^^ b.toNat) &&& 0xFF) := by
  rw [tableIndex_eq_xor, h, ofNat_xor_and_byteMask]

theorem leavingByte_of_refin {c : Cfg} (h : c.refin = true) (r : Word) :
    leavingByte c r = BitVec.ofNat 8 r.toNat := by
  rw [leavingByte, if_pos h, BitVec.ofNat_toNat]

theorem leavingByte_of_wide {c : Cfg} (h : c.refin = false) (hw : 8 ≤ c.w) (r : Word) :
    leavingByte c r = BitVec.ofNat 8 (r.toNat >>> (c.w - 8)) := by
  rw [leavingByte, if_neg (by simp [h]), if_pos hw, ← BitVec.toNat_ushiftRight,
    BitVec.ofNat_toNat]

theorem leavingByte_of_narrow {c : Cfg} (h : c.refin = false) (hw : c.w < 8) (r : Word) :
    leavingByte c r = BitVec.ofNat 8 (r.toNat <<< (8 - c.w)) := by
  apply BitVec.eq_of_toNat_eq
  rw [leavingByte, if_neg (by simp [h]), if_neg (by omega), BitVec.toNat_setWidth, BitVec.toNat_shiftLeft,
    BitVec.toNat_ofNat, Nat.mod_mod_of_dvd _ (by decide)]

theorem toNat_shiftByte_of_refin {c : Cfg} (h : c.refin = true) (r : Word) : (shiftByte c r).toNat = r.toNat >>> 8 := by
  rw [shiftByte, if_pos h, BitVec.toNat_ushiftRight]

theorem toNat_shiftByte_of_not_refin {c : Cfg} (h : c.refin = false) (hw : c.w ≤ 64) (r : Word) :
    (shiftByte c r).toNat = (r.toNat <<< 8) &&& (2 ^ c.w - 1) := by
  rw [shiftByte, if_neg (by simp [h]), BitVec.toNat_and, toNat_mask hw, BitVec.toNat_shiftLeft,
    Nat.and_two_pow_sub_one_eq_mod, Nat.and_two_pow_sub_one_eq_mod, Nat.mod_mod_of_dvd _ (Nat.pow_dvd_pow 2 hw)]

/-- A register narrower than a byte leaves whole in one fold (R120). -/
theorem toNat_shiftByte_of_narrow {c : Cfg} (h : c.refin = false) (hw : c.w < 8) (r : Word) :
    (shiftByte c r).toNat = 0 := by
  have hdvd : 2 ^ c.w ∣ r.toNat * 2 ^ 8 := (Nat.pow_dvd_pow 2 hw.le).mul_left _
  rw [toNat_shiftByte_of_not_refin h (by omega), Nat.and_two_pow_sub_one_eq_mod, Nat.shiftLeft_eq,
    Nat.mod_eq_zero_of_dvd hdvd]

/-- Settles O31: a fold is the shifted register XORed with the entry at the leaving byte XORed with the input byte. -/
theorem foldTableFormula : Obligations.FoldTableFormula := by
  intro c table r b hc _
  rw [foldTable_eq_xor, BitVec.toNat_xor]
  refine ⟨fun h => ?reflected, fun h hw => ?wide, fun h hw => ?narrow⟩
  case reflected =>
    rw [tableIndex_eq_ofNat (leavingByte_of_refin h r), toNat_shiftByte_of_refin h, Nat.xor_comm]
  case wide =>
    rw [tableIndex_eq_ofNat (leavingByte_of_wide h hw r), toNat_shiftByte_of_not_refin h hc.width_le]
  case narrow =>
    rw [tableIndex_eq_ofNat (leavingByte_of_narrow h hw r), toNat_shiftByte_of_narrow h hw, Nat.zero_xor]

end Sys2Proof.Machine

/-! SUPPORT. The statements of 43_checksum.md: the output stage, CHECKSUM between other commands, and the mapping from
catalogue parameters. -/

namespace Sys2Proof.Machine

/-! ### The output stage (R141) -/

/-- R141 bit by bit. -/
theorem getLsbD_outFn {c : Cfg} (hw : c.w ≤ 64) (r : Word) (i : Nat) :
    (outFn c r).getLsbD i =
      (decide (i < c.w) &&
        ((if c.refout then r.getLsbD (c.w - 1 - i) else r.getLsbD i) ^^ c.xorout.getLsbD i)) := by
  rw [outFn, getLsbD_and_mask, BitVec.getLsbD_xor]
  rcases Nat.lt_or_ge i c.w with hi | hi
  · cases h : c.refout with
    | true => rw [if_pos rfl, if_pos rfl, getLsbD_rev_of_lt hw hi]
    | false => rw [if_neg nofun, if_neg nofun]
  · rw [decide_eq_false (Nat.not_lt.2 hi), Bool.false_and, Bool.false_and]

theorem getLsbD_outFn_of_ge (c : Cfg) (r : Word) {i : Nat} (hi : c.w ≤ i) : (outFn c r).getLsbD i = false :=
  fits_getLsbD (fits_and_mask _ _) hi

/-- Under legal parameters the final mask takes nothing from the output. -/
theorem outFn_eq_xor {c : Cfg} (hc : c.Legal) {r : Word} (hr : fits c.w r) :
    outFn c r = (if c.refout then rev c.w r else r) ^^^ c.xorout := by
  refine and_mask_of_fits (fits_xor ?_ hc.xorout_fits)
  split
  · exact fits_rev _ _
  · exact hr

/-! ### CHECKSUM (R140, R142) -/

/-- CHECKSUM appends its response and changes nothing else, with an accumulator or without one. -/
theorem exec_checksum_eq (s : State) :
    exec .checksum s = .next { s with rspOut := s.rspOut ++ [(checksum s.acc).2] } := by
  obtain ⟨acc, cmdIn, datIn, rspOut⟩ := s
  cases acc <;> rfl

theorem exec_checksum_of_no_acc {s : State} (h : s.acc = none) :
    exec .checksum s = .next { s with rspOut := s.rspOut ++ [⟨.refused, 0⟩] } := by
  rw [exec_checksum_eq, h]
  rfl

/-- Settles O41: the response is a function of the accumulator, which CHECKSUM leaves. -/
theorem checksumNeverMutates : Obligations.ChecksumNeverMutates :=
  fun s => ⟨(checksum s.acc).2, exec_checksum_eq s, exec_checksum_eq _⟩

/-- Settles O40: the response carries `outFn`, read bit by bit. -/
theorem checksumAnswersTheOutput : Obligations.ChecksumAnswersTheOutput := by
  refine ⟨fun s a ha hlegal => ?output, fun s h => exec_checksum_of_no_acc h,
    fun s poly init refin table ha => ?vector⟩
  case output =>
    refine ⟨outFn a.cfg a.reg, exec_checksum_of_acc ha, fun i hi => ?_, fun i hi => getLsbD_outFn_of_ge a.cfg a.reg hi,
      outFn_eq_xor hlegal.cfg_legal hlegal.reg_fits⟩
    rw [getLsbD_outFn hlegal.cfg_legal.width_le, decide_eq_true hi, Bool.true_and]
  case vector =>
    have hout : outFn ⟨32#7, poly, init, refin, false, 0xFFFFFFFF#64⟩ 0x340BC6D9#64 = 0xCBF43926#64 := by
      change ((0x340BC6D9#64 : Word) ^^^ 0xFFFFFFFF#64) &&& mask 32 = 0xCBF43926#64
      decide
    rw [exec_checksum_of_acc ha, hout]

/-! ### The seeded state (R144) -/

/-- The output of the seed: `finalXor XOR reflect(initialValue)`. -/
theorem outFn_init {c : Cfg} (hc : c.Legal) :
    outFn c c.init = c.xorout ^^^ (if c.refout then rev c.w c.init else c.init) := by
  rw [outFn_eq_xor hc hc.init_fits, BitVec.xor_comm]

/-- Settles O43: CONFIG and RESET both leave the seed in `REG`, whose output is `outFn_init`. -/
theorem checksumOfTheSeededState : Obligations.ChecksumOfTheSeededState := by
  refine ⟨fun width poly init refin refout xorout s hpos hle => ?config, fun s a ha hlegal => ?reset,
    by decide, by decide, by decide⟩
  case config =>
    have hw := (widthLegal_iff width).2 ⟨hpos, hle⟩
    refine ⟨_, _, exec_config_legal hw poly init refin refout xorout s, exec_checksum_of_acc rfl, ?_⟩
    rw [seeded_cfg, seeded_reg, outFn_init (maskedCfg_legal hw ..), maskedCfg_w hle]
    rfl
  case reset =>
    refine ⟨_, _, exec_reset_of_acc ha, exec_checksum_of_acc rfl, ?_⟩
    rw [outFn_init hlegal.cfg_legal]

/-! ### Corner cases (R146) -/

/-- A command that answers an error leaves the accumulator as it was (R158). -/
theorem result_acc_of_error {i : Instr} {payload : List Element} {acc : Option Accumulator}
    (h : (result i payload acc).2.status ≠ .ok) : (result i payload acc).1 = acc := by
  obtain ⟨_, _, _, _, _, _, -, -, hr⟩ | ⟨_, -, -, hr⟩ | ⟨_, _, -, -, -, hr⟩ | ⟨_, -, -, hr⟩ |
    ⟨_, _, _, _, _, _, -, -, hr⟩ | ⟨_, _, -, -, -, hr⟩ | ⟨-, -, hr⟩ := result_cases i payload acc <;> rw [hr] at h ⊢
  case inl | inr.inl | inr.inr.inl | inr.inr.inr.inl => exact absurd rfl h
  all_goals rfl

theorem exec_acc_of_error {i : Instr} {s t : State} {r : Response} (h : exec i s = .next t)
    (hr : t.rspOut = s.rspOut ++ [r]) (herror : r.status ≠ .ok) : t.acc = s.acc := by
  obtain ⟨payload, rest, -, -, rfl⟩ := exec_next h
  have hresponse : (result i payload s.acc).2 = r := List.singleton_inj.1 (List.append_cancel_left hr)
  exact result_acc_of_error (hresponse ▸ herror)

/-- A reversal within one bit changes nothing. -/
theorem outFn_width_one {c : Cfg} (hw : c.w = 1) {r : Word} (hr : fits c.w r) :
    outFn c r = outFn { c with refout := !c.refout } r := by
  have hrev : rev c.w r = r := by rw [hw] at hr ⊢; exact rev_one hr
  simp only [outFn, hrev, ite_self]

/-- Settles O45: the output bit by bit, and CHECKSUM as a function of an accumulator that a failed PROCESS leaves. -/
theorem checksumCornerCases : Obligations.ChecksumCornerCases := by
  refine ⟨fun c r hc hr => ⟨fun hw => outFn_width_one hw hr, fun hx ho => ?plain, fun hx i hi => ?complement,
    fun _ ho => ?wide, fun i hi => getLsbD_outFn_of_ge c r hi⟩,
    fun s t u v a len _ hprocess hinvalid hu hv => ?invalid, fun s h => exec_checksum_of_no_acc h⟩
  case plain =>
    rw [outFn_eq_xor hc hr, hx, ho]
    exact BitVec.xor_zero
  case complement =>
    have hi64 : i < 64 := Nat.lt_of_lt_of_le hi hc.width_le
    rw [outFn, getLsbD_and_mask, BitVec.getLsbD_xor, hx, getLsbD_mask]
    simp [hi, hi64]
  case wide =>
    rw [outFn_eq_xor hc hr, ho, if_neg nofun]
  case invalid =>
    have hacc : t.acc = s.acc := exec_acc_of_error hprocess hinvalid nofun
    rw [exec_checksum_eq] at hu hv
    obtain rfl := Host.Outcome.next.inj hu
    obtain rfl := Host.Outcome.next.inj hv
    exact ⟨_, rfl, by rw [hacc]⟩

/-! ### CHECKSUM between PROCESS commands (R143) -/

/-- A step over the canonical word of a command. -/
theorem step_encode {s : State} {i : Instr} {later : List HostInput} (h : s.cmdIn = .command (encode i) :: later) :
    step s = exec i { s with cmdIn := later } := by
  rw [stepRunsTheDecodedCommand s (encode i) later h, decode_encode]

/-- `PROCESS; CHECKSUM` over a payload of bytes. -/
theorem run_process_checksum {s : State} {a : Accumulator} {n : Config.Length} {payload rest : List Element}
    {later : List HostInput} (ha : s.acc = some a) (hlen : payload.length = n.toNat)
    (hbytes : ∀ e ∈ payload, elementNB e = false) (hdat : s.datIn = payload ++ rest)
    (hcmd : s.cmdIn = .command (encode (.process n)) :: .command (encode .checksum) :: later) :
    run 2 s = .next
      ⟨some { a with reg := foldBytes a.cfg a.table a.reg (payload.map elementByte) }, later, rest,
        s.rspOut ++ [⟨.ok, 0⟩] ++ [⟨.ok, outFn a.cfg (foldBytes a.cfg a.table a.reg (payload.map elementByte))⟩]⟩ := by
  have hprocess := (step_encode hcmd).trans (exec_process_of_bytes ha hdat hlen (any_elementNB_of_bytes hbytes))
  rw [run_succ hprocess, run_succ ((step_encode rfl).trans (exec_checksum_of_acc rfl))]
  rfl

/-- Settles O42: two runs of `PROCESS; CHECKSUM`, whose folds join. -/
theorem checksumInterleaves : Obligations.ChecksumInterleaves := by
  intro s a n1 n2 b1 b2 rest later ha hlen1 hlen2 hbytes hdat hcmd
  obtain ⟨hbytes1, hbytes2⟩ := List.forall_mem_append.1 hbytes
  simp only [List.cons_append, List.nil_append] at hcmd
  have hfirst := run_process_checksum ha hlen1 hbytes1 (hdat.trans (List.append_assoc ..)) hcmd
  rw [run_add 2 hfirst, run_process_checksum rfl hlen2 hbytes2 rfl rfl]
  simp only [List.map_append, foldBytes_append, List.append_assoc, List.cons_append, List.nil_append]

/-- Settles O46: each example of R147, evaluated. -/
theorem workedOutputs : Obligations.WorkedOutputs := by
  unfold Obligations.WorkedOutputs
  decide

/-! ### The mapping from catalogue parameters (R145) -/

theorem rev_xor (n : Nat) (u v : Word) : rev n (u ^^^ v) = rev n u ^^^ rev n v := by
  refine BitVec.eq_of_getLsbD_eq fun i _ => ?_
  rw [BitVec.getLsbD_xor, getLsbD_rev, getLsbD_rev, getLsbD_rev, BitVec.getLsbD_xor, Bool.and_xor_distrib_left]

theorem rev_and_mask {n : Nat} (h : n ≤ 64) (v : Word) : rev n v &&& mask n = rev n (v &&& mask n) :=
  eq_of_fits_of_getLsbD_eq (fits_and_mask _ _) (fits_rev _ _) fun i hi => by
    have hmirror : n - 1 - i < n := by omega
    rw [getLsbD_and_mask, getLsbD_rev_of_lt h hi, getLsbD_rev_of_lt h hi, getLsbD_and_mask, decide_eq_true hi,
      decide_eq_true hmirror]

theorem rev_rev_eq_and_mask {n : Nat} (h : n ≤ 64) (v : Word) : rev n (rev n v) = v &&& mask n := by
  have hmask : rev n v = rev n (v &&& mask n) := by rw [← rev_and_mask h, and_mask_of_fits (fits_rev _ _)]
  rw [hmask, rev_rev h (fits_and_mask _ _)]

/-- The right-shifting register is the reversal of the left-shifting one. -/
theorem ushiftRight_rev {n : Nat} (h : n ≤ 64) (r : Word) : rev n r >>> 1 = rev n ((r <<< 1) &&& mask n) :=
  eq_of_fits_of_getLsbD_eq (fits_ushiftRight (fits_rev _ _) 1) (fits_rev _ _) fun i hi => by
    have hmirror : n - 1 - i < n ∧ n - 1 - i < 64 := by omega
    rw [BitVec.getLsbD_ushiftRight, getLsbD_rev_of_lt h hi, getLsbD_and_mask, BitVec.getLsbD_shiftLeft]
    rcases Nat.lt_or_ge (1 + i) n with hlast | hlast
    · have hin : ¬ n - 1 - i < 1 := by omega
      rw [getLsbD_rev_of_lt h hlast, show n - 1 - (1 + i) = n - 1 - i - 1 by omega]
      simp [hmirror, hin]
    · have hout : n - 1 - i < 1 := by omega
      simp [hout, Nat.not_lt.2 hlast]

/-- What the block's register holds where the catalogue's left-shifting register holds `r`. -/
def Variant.blockReg (v : Variant) (r : Word) : Word := if v.refin then rev v.width r else r

/-- The configuration registers that the mapped CONFIG leaves. -/
def Variant.blockCfg (v : Variant) : Cfg :=
  maskedCfg (BitVec.ofNat 8 v.width) v.poly (v.blockReg v.init) v.refin (v.refin ^^ v.refout) v.xorout

theorem Variant.configure_eq (v : Variant) :
    v.configure = .config (BitVec.ofNat 8 v.width) v.poly (v.blockReg v.init) v.refin (v.refin ^^ v.refout)
      v.xorout := by
  cases h : v.refin <;> simp [configure, blockReg, h]

theorem Variant.toNat_ofNat_width {v : Variant} (hle : v.width ≤ 64) : (BitVec.ofNat 8 v.width).toNat = v.width := by
  rw [BitVec.toNat_ofNat]
  omega

theorem Variant.widthLegal_width {v : Variant} (hpos : 1 ≤ v.width) (hle : v.width ≤ 64) :
    widthLegal (BitVec.ofNat 8 v.width) = true := by
  rw [widthLegal_iff, toNat_ofNat_width hle]
  exact ⟨hpos, hle⟩

theorem Variant.blockCfg_legal {v : Variant} (hpos : 1 ≤ v.width) (hle : v.width ≤ 64) : v.blockCfg.Legal :=
  maskedCfg_legal (widthLegal_width hpos hle) ..

@[simp] theorem Variant.blockCfg_refin (v : Variant) : v.blockCfg.refin = v.refin := rfl
@[simp] theorem Variant.blockCfg_refout (v : Variant) : v.blockCfg.refout = (v.refin ^^ v.refout) := rfl

theorem Variant.exec_configure {v : Variant} (hpos : 1 ≤ v.width) (hle : v.width ≤ 64) (s : State) :
    exec v.configure s =
      .next { s with acc := some (seeded v.blockCfg), rspOut := s.rspOut ++ [⟨.ok, 0⟩] } := by
  rw [configure_eq, exec_config_legal (widthLegal_width hpos hle), blockCfg]

/-- The catalogue takes the bits of a byte in the block's order (R43, R96). -/
theorem Variant.byte_eq_foldl (v : Variant) (r : Word) (b : Byte) :
    v.byte r b = ((bitOrder v.refin).map fun k => b.getLsbD k).foldl v.bit r := by
  cases h : v.refin <;> simp [byte, h] <;> rfl

section BlockCfg
variable {v : Variant} (hle : v.width ≤ 64)
include hle

theorem Variant.blockCfg_w : v.blockCfg.w = v.width := by
  have hwidth := toNat_ofNat_width hle
  rw [blockCfg, maskedCfg_w (hwidth.trans_le hle), hwidth]

theorem Variant.blockCfg_poly : v.blockCfg.poly = v.poly &&& mask v.width := by
  rw [blockCfg, maskedCfg, toNat_ofNat_width hle]

theorem Variant.blockCfg_xorout : v.blockCfg.xorout = v.xorout &&& mask v.width := by
  rw [blockCfg, maskedCfg, toNat_ofNat_width hle]

/-- The block is seeded with what corresponds to the catalogue's initial register. -/
theorem Variant.blockCfg_init : v.blockCfg.init = v.blockReg (v.init &&& mask v.width) := by
  rw [blockCfg, maskedCfg, toNat_ofNat_width hle]
  cases h : v.refin <;> simp [blockReg, h, rev_and_mask hle]

theorem Variant.bit_eq_stepMSB (r : Word) (d : Bool) : v.bit r d = stepMSB v.blockCfg r d := by
  rw [stepMSB, blockCfg_w hle, blockCfg_poly hle, bit]
  cases r.getLsbD (v.width - 1) <;> cases d <;> rfl

/-- One bit keeps the correspondence of the two registers: in the reflected convention the reversals of the shifted
register and of the polynomial. -/
theorem Variant.stepBit_blockReg (hpos : 1 ≤ v.width) (r : Word) (d : Bool) :
    stepBit v.blockCfg (v.blockReg r) d = v.blockReg (v.bit r d) := by
  rw [bit_eq_stepMSB hle]
  cases h : v.refin with
  | false => simp [stepBit_of_not_refin, blockReg, h]
  | true =>
    have hleaving : (rev v.width r).getLsbD 0 = r.getLsbD (v.width - 1) := getLsbD_rev_of_lt hle hpos r
    have hpoly (p : Bool) : rev v.width (if p = true then v.blockCfg.poly else 0) =
        if p = true then rev v.width v.blockCfg.poly else 0 := by
      rw [apply_ite (rev v.width), rev_zero hle]
    rw [stepBit_of_refin h, stepLSB_eq_xor, stepMSB_eq_xor, blockReg, if_pos h, blockReg, if_pos h, rev_xor, hpoly,
      prefl, blockCfg_w hle, ← ushiftRight_rev hle, hleaving]

/-- One byte keeps the correspondence too. -/
theorem Variant.foldBits_blockReg (hpos : 1 ≤ v.width) (r : Word) (b : Byte) :
    foldBits v.blockCfg (v.blockReg r) b = v.blockReg (v.byte r b) := by
  rw [foldBits_eq_foldl, byte_eq_foldl, blockCfg_refin,
    List.foldl_hom v.blockReg (stepBit_blockReg hle hpos)]

/-- The final reversal: the block reverses where its register is not already as the catalogue asks. -/
theorem Variant.outFn_blockReg (r : Word) :
    outFn v.blockCfg (v.blockReg r) =
      ((if v.refout then rev v.width r else r) ^^^ v.xorout) &&& mask v.width := by
  have hrev := rev_rev_eq_and_mask hle r
  rw [outFn, blockCfg_w hle, blockCfg_xorout hle, blockCfg_refout, and_mask_xor, and_mask_xor]
  cases hin : v.refin <;> cases hout : v.refout <;> simp [blockReg, hin, hrev, BitVec.and_assoc]

/-- The block's checksum is the catalogue's. -/
theorem Variant.outFn_foldBytes_blockCfg (hpos : 1 ≤ v.width) (message : List Byte) :
    outFn v.blockCfg (foldBytes v.blockCfg (buildTable v.blockCfg) v.blockCfg.init message) = v.crc message := by
  have hlegal := blockCfg_legal hpos hle
  rw [foldBytes_buildTable_eq_foldl hlegal hlegal.init_fits, blockCfg_init hle,
    List.foldl_hom v.blockReg (foldBits_blockReg hle hpos), outFn_blockReg hle, crc]

end BlockCfg

theorem pieceResponse_of_bytes {pieces : List (List Element)} (h : ∀ e ∈ pieces.flatten, elementNB e = false) :
    pieces.map pieceResponse = List.replicate pieces.length ⟨.ok, 0⟩ := by
  refine List.map_eq_replicate_iff.2 fun piece hpiece => ?_
  have hnb := any_elementNB_of_bytes fun e he => h e (List.mem_flatten_of_mem hpiece he)
  rw [pieceResponse, hnb, if_neg nofun]

/-- The PROCESS commands a line of bytes assembles to fold the whole line and all answer OK. -/
theorem run_assembleProcess_of_bytes {elements : List Element} (h : ∀ e ∈ elements, elementNB e = false)
    (a : Accumulator) (later : List HostInput) (rest : List Element) (rspOut : List Response) :
    run (assembleProcess elements).length
        ⟨some a, (assembleProcess elements).map (fun t => .command (encode t.instr)) ++ later, elements ++ rest,
          rspOut⟩ =
      .next ⟨some { a with reg := foldBytes a.cfg a.table a.reg (elements.map elementByte) }, later, rest,
        rspOut ++ List.replicate (assembleProcess elements).length ⟨.ok, 0⟩⟩ := by
  have hflat := flatten_splitPayload elements.length elements
  have hbytes := hflat.symm ▸ h
  have hshort : ∀ p ∈ splitPayload elements.length elements, p.length ≤ Config.maxPayload :=
    fun _ hp => length_le_of_mem_splitPayload (Nat.le_refl _) hp
  have hrun := run_processOf hshort a later rest rspOut
  rw [pieceResponse_of_bytes hbytes, foldl_foldPiece_of_bytes hbytes, hflat] at hrun
  rw [assembleProcess_eq, List.length_map]
  exact hrun

theorem map_elementByte_map_byteElement (message : List Byte) :
    (message.map byteElement).map elementByte = message := by
  simp [Function.comp_def]

/-- Settles O44: CONFIG, the PROCESS commands and CHECKSUM in turn; `outFn_foldBytes_blockCfg` for the checksum. -/
theorem catalogueMapping : Obligations.CatalogueMapping := by
  intro v message s rest later hpos hle processes hdat hcmd
  simp only [List.cons_append, List.nil_append, List.append_assoc] at hcmd
  have hconfig := (step_encode hcmd).trans (Variant.exec_configure hpos hle _)
  have hprocess := run_assembleProcess_of_bytes (elements := message.map byteElement) (by simp) (seeded v.blockCfg)
    (.command (encode .checksum) :: later) rest (s.rspOut ++ [⟨.ok, 0⟩])
  rw [map_elementByte_map_byteElement, seeded_cfg, seeded_table, seeded_reg, ← hdat] at hprocess
  have hchecksum := (run_add 1 hprocess).trans (run_succ ((step_encode rfl).trans (exec_checksum_of_acc rfl)))
  rw [Variant.outFn_foldBytes_blockCfg hle hpos] at hchecksum
  refine ⟨_, (run_succ hconfig).trans hchecksum, rfl, rfl, ?_⟩
  simp only [List.append_assoc, List.replicate_succ, List.cons_append, List.nil_append, processes]

end Sys2Proof.Machine

/-! SUPPORT. The statements of 60_exceptions.md: each status of a response and the one cause it has, the block after an
error, and the block while the host does nothing. -/

namespace Sys2Proof.Machine

/-! ### The idle step (R167) -/

/-- Settles O17: an empty command port is the first case of `step`. -/
theorem idleBlockHoldsItsState : Obligations.IdleBlockHoldsItsState := by
  intro s h
  rw [step, h]

/-! ### The status of each command (R151 to R153) -/

theorem status_config (width : BitVec 8) (poly init : Word) (refin refout : Bool) (xorout : Word)
    (payload : List Element) (acc : Option Accumulator) :
    (result (.config width poly init refin refout xorout) payload acc).2.status =
      if widthLegal width then .ok else .invalidParameter := by
  rw [result, config]
  split <;> rfl

theorem status_reset (payload : List Element) (acc : Option Accumulator) :
    (result .reset payload acc).2.status = if acc.isSome then .ok else .refused := by
  cases acc <;> rfl

theorem status_process (len : Config.Length) (payload : List Element) (acc : Option Accumulator) :
    (result (.process len) payload acc).2.status =
      if acc.isSome then (if payload.any elementNB then .invalidInput else .ok) else .refused := by
  cases acc with
  | none => rfl
  | some a =>
    rw [result, process, requireValid_some]
    cases payload.any elementNB <;> rfl

theorem status_checksum (payload : List Element) (acc : Option Accumulator) :
    (result .checksum payload acc).2.status = if acc.isSome then .ok else .refused := by
  cases acc <;> rfl

theorem widthLegal_eq_false_iff (width : BitVec 8) :
    widthLegal width = false ↔ width.toNat = 0 ∨ 65 ≤ width.toNat := by
  rw [← Bool.not_eq_true, widthLegal_iff]
  omega

/-! ### The cause of each error (R151 to R153, R156) -/

section Causes

variable {i : Instr} {payload : List Element} {acc : Option Accumulator}

theorem status_eq_invalidParameter_iff :
    (result i payload acc).2.status = .invalidParameter ↔
      ∃ width poly init refin refout xorout, i = .config width poly init refin refout xorout ∧
        (width.toNat = 0 ∨ 65 ≤ width.toNat) := by
  cases i with
  | config width poly init refin refout xorout =>
    rw [status_config]
    simp [← widthLegal_eq_false_iff]
  | reset => simp [status_reset, ite_eq_iff]
  | process len => simp [status_process, ite_eq_iff]
  | checksum => simp [status_checksum, ite_eq_iff]

theorem status_eq_invalidInput_iff :
    (result i payload acc).2.status = .invalidInput ↔
      ∃ len, i = .process len ∧ acc.isSome = true ∧ ∃ e ∈ payload, elementNB e = true := by
  cases i with
  | config width poly init refin refout xorout => simp [status_config, ite_eq_iff]
  | reset => simp [status_reset, ite_eq_iff]
  | process len =>
    rw [status_process]
    simp [ite_eq_iff]
  | checksum => simp [status_checksum, ite_eq_iff]

theorem status_eq_refused_iff :
    (result i payload acc).2.status = .refused ↔
      acc.isSome = false ∧ (i = .reset ∨ i = .checksum ∨ ∃ len, i = .process len) := by
  cases i with
  | config width poly init refin refout xorout => simp [status_config, ite_eq_iff]
  | reset => simp [status_reset]
  | process len => simp [status_process, ite_eq_iff]
  | checksum => simp [status_checksum]

/-- An error's response carries the value 0 (R70, R150). -/
theorem value_of_error (h : (result i payload acc).2.status ≠ .ok) : (result i payload acc).2.value = 0 := by
  by_contra hvalue
  exact h (checksum_of_result_value_ne_zero hvalue).2

end Causes

/-! ### The response of a command that answers (R61, R69) -/

theorem elementsTaken_of_valid {s : State} (h : s.valid = true) (i : Instr) :
    elementsTaken s.acc i = i.payloadLength := by
  obtain ⟨a, ha⟩ := Option.isSome_iff_exists.1 h
  rw [ha, elementsTaken_some]

theorem elementsTaken_of_not_valid {s : State} (h : s.valid = false) (i : Instr) : elementsTaken s.acc i = 0 := by
  have hnone : s.acc = none := Option.isNone_iff_eq_none.1 (Option.isSome_eq_false_iff.1 h)
  rw [hnone, elementsTaken_none]

/-- The response is that of the elements at the head of the data channel, as many as the command takes. -/
theorem exec_rspOut {i : Instr} {s t : State} (h : exec i s = .next t) :
    t.rspOut = s.rspOut ++ [(result i (s.datIn.take (elementsTaken s.acc i)) s.acc).2] := by
  obtain ⟨payload, rest, hdat, hlen, rfl⟩ := exec_next h
  rw [hdat, List.take_left' hlen]

/-- Settles O48: the cause of each status, `exec_acc_of_error` for the block, and `exec_channels` for the elements. -/
theorem eachErrorHasItsCause : Obligations.EachErrorHasItsCause := by
  intro i s t h
  refine ⟨_, exec_rspOut h, status_eq_invalidParameter_iff, status_eq_invalidInput_iff.trans ?payload,
    status_eq_refused_iff, fun herror => ⟨value_of_error herror, exec_acc_of_error h (exec_rspOut h) herror⟩,
    fun hinvalid => ?consumed, fun hrefused => ?kept⟩
  case payload =>
    refine exists_congr fun len => and_congr_right fun hi => and_congr_right fun hvalid => ?_
    rw [elementsTaken_of_valid hvalid, hi, Instr.payloadLength]
  case consumed =>
    obtain ⟨len, rfl, hvalid, -⟩ := status_eq_invalidInput_iff.1 hinvalid
    exact ⟨len, rfl, (exec_channels h (elementsTaken_of_valid hvalid _)).2⟩
  case kept =>
    obtain ⟨hvalid, -⟩ := status_eq_refused_iff.1 hrefused
    obtain ⟨-, hdat, -⟩ := exec_channels h (elementsTaken_of_not_valid hvalid i)
    exact hdat.symm

/-- Settles O51: `exec_acc_of_error`. -/
theorem errorsWriteNoState : Obligations.ErrorsWriteNoState := fun _ _ _ _ => exec_acc_of_error

/-! ### With an accumulator and without one (R153, R155) -/

/-- Settles O47: the refusal of each of the three commands, and the cause of a refusal, which no CONFIG has. -/
theorem refusedWithoutAnAccumulator : Obligations.RefusedWithoutAnAccumulator := by
  refine ⟨fun s h => ⟨exec_reset_of_no_acc h, exec_process_of_no_acc h, exec_checksum_of_no_acc h⟩,
    fun width poly init refin refout xorout s => ?config⟩
  case config =>
    refine ⟨_, _, rfl, exec_rspOut (i := .config width poly init refin refout xorout) rfl, fun hrefused => ?_⟩
    obtain ⟨-, hi⟩ := status_eq_refused_iff.1 hrefused
    simp at hi

/-- Settles O49: the outcomes of the three commands on a configured block. -/
theorem wellFormedCommandsSucceed : Obligations.WellFormedCommandsSucceed := by
  intro s hvalid
  obtain ⟨a, ha⟩ := Option.isSome_iff_exists.1 hvalid
  refine ⟨⟨_, exec_reset_of_acc ha, rfl⟩, ⟨_, _, exec_checksum_of_acc ha, rfl⟩, fun len hdelivers hbytes => ?process⟩
  case process =>
    have hlen : len.toNat ≤ s.datIn.length := by
      rwa [State.delivers, elementsTaken_of_valid hvalid, Instr.payloadLength] at hdelivers
    exact ⟨_, exec_process_of_bytes ha (List.take_append_drop _ _).symm (List.length_take_of_le hlen)
      (any_elementNB_of_bytes hbytes), rfl⟩

end Sys2Proof.Machine

/-! SUPPORT. The statements of 70_reset_and_hazards.md: hardware reset between and during commands, the block before its
first CONFIG, and the block while it waits and as it answers at the ports. -/

namespace Sys2Proof.Machine

/-! ### Hardware reset (R180, R181) -/

theorem step_rst {s : State} {later : List HostInput} (h : s.cmdIn = .rst :: later) :
    step s = .next (hardReset { s with cmdIn := later }) := by
  rw [step, h]

theorem step_rstDuring {s : State} {cw : CommandWord} {taken : Nat} {later : List HostInput}
    (h : s.cmdIn = .rstDuring cw taken :: later) :
    step s = .next (abandonCommand (decode cw) taken { s with cmdIn := later }) := by
  rw [step, h]

theorem elementsTaken_eq_ite (s : State) (i : Instr) :
    elementsTaken s.acc i = if s.valid then i.payloadLength else 0 := by
  split
  · next hvalid => exact elementsTaken_of_valid hvalid i
  · next hvalid => exact elementsTaken_of_not_valid (Bool.eq_false_iff.2 hvalid) i

/-- Settles O52: `rst` between commands, the only way `VALID` falls, and the edge of an asserted `rst`. -/
theorem hardwareResetClearsValid : Obligations.HardwareResetClearsValid := by
  refine ⟨fun _ _ => step_rst, fun _ _ => valid_falls_only_by_hardware_reset, fun w inp log hrst => ?edge, rfl, rfl⟩
  case edge =>
    rw [PortLog.edge_rst log hrst]
    exact ⟨Wire.edge_rst hrst w, rfl, rfl, rfl⟩

/-- Settles O53: `abandonCommand` drops the elements transferred, and an edge with `rst` leads to `Wire.reset`. -/
theorem resetDuringACommandAbandonsIt : Obligations.ResetDuringACommandAbandonsIt := by
  refine ⟨fun s cw taken later h => ?step, fun w _ hrst => Wire.edge_rst hrst w⟩
  case step =>
    rw [step_rstDuring h, abandonCommand, elementsTaken_eq_ite]
    rfl

/-! ### The block before its first CONFIG (R153, R182) -/

/-- What a block without an accumulator can do before a CONFIG succeeds: it goes on without one, takes no element, and
answers errors alone. -/
def WithoutEffect (s t : State) : Prop :=
  t.acc = none ∧ t.datIn = s.datIn ∧ ∃ answers, t.rspOut = s.rspOut ++ answers ∧ ∀ r ∈ answers, r.status ≠ .ok

theorem WithoutEffect.silent {s t : State} (hacc : t.acc = none) (hdat : t.datIn = s.datIn)
    (hrsp : t.rspOut = s.rspOut) : WithoutEffect s t :=
  ⟨hacc, hdat, [], hrsp.trans (List.append_nil _).symm, nofun⟩

theorem WithoutEffect.trans {s t u : State} (hst : WithoutEffect s t) (htu : WithoutEffect t u) :
    WithoutEffect s u := by
  obtain ⟨-, hdat, first, hfirst, hfirstErrors⟩ := hst
  obtain ⟨hacc, hdat', later, hlater, hlaterErrors⟩ := htu
  refine ⟨hacc, hdat'.trans hdat, first ++ later, ?_, List.forall_mem_append.2 ⟨hfirstErrors, hlaterErrors⟩⟩
  rw [hlater, hfirst, List.append_assoc]

/-- Without an accumulator, a command that constructs none is answered with an error and leaves none. -/
theorem result_of_no_acc {cw : CommandWord} (hcw : HostInput.ConstructsNothing (.command cw)) (payload : List Element) :
    (result (decode cw) payload none).1 = none ∧ (result (decode cw) payload none).2.status ≠ .ok := by
  obtain ⟨width, _, _, _, _, _, hi, hw, -⟩ | ⟨_, -, ⟨⟩, -⟩ | ⟨_, _, -, ⟨⟩, -⟩ | ⟨_, -, ⟨⟩, -⟩ |
    ⟨_, _, _, _, _, _, -, -, hr⟩ | ⟨_, _, -, ⟨⟩, -⟩ | ⟨-, -, hr⟩ := result_cases (decode cw) payload none
  case inl =>
    obtain ⟨_, ⟨⟩, hnone⟩ := hcw
    obtain ⟨hop, rfl⟩ := op_and_width_of_decode_eq_config hi
    have hwidth := (widthLegal_eq_false_iff _).2 (hnone.resolve_left (not_not_intro hop))
    exact absurd hw (Bool.eq_false_iff.1 hwidth)
  all_goals rw [hr]; exact ⟨rfl, nofun⟩

theorem exec_withoutEffect {cw : CommandWord} {s t : State} (hcw : HostInput.ConstructsNothing (.command cw))
    (h : exec (decode cw) s = .next t) (hs : s.acc = none) : WithoutEffect s t := by
  obtain ⟨payload, rest, hdat, hlen, rfl⟩ := exec_next h
  rw [hs, elementsTaken_none, List.length_eq_zero_iff] at hlen
  subst hlen
  obtain ⟨hacc, herror⟩ := result_of_no_acc hcw []
  rw [hs]
  exact ⟨hacc, hdat.symm, _, rfl, List.forall_mem_singleton.2 herror⟩

theorem step_withoutEffect {s t : State}
    (hin : ∀ cw, .command cw ∈ s.cmdIn.take 1 → HostInput.ConstructsNothing (.command cw)) (h : step s = .next t)
    (hs : s.acc = none) : WithoutEffect s t := by
  obtain ⟨-, rfl⟩ | ⟨cw, later, hc, he⟩ | ⟨later, -, rfl⟩ | ⟨cw, taken, later, -, rfl⟩ := step_next_cases h
  · exact .silent hs rfl rfl
  · exact exec_withoutEffect (s := { s with cmdIn := later }) (hin cw (by simp [hc])) he hs
  · exact .silent rfl rfl rfl
  · exact .silent rfl (by simp [hs]) rfl

/-- A run that answers has a first step that answers. -/
theorem step_of_run_succ {n : Nat} {s t : State} (h : run (n + 1) s = .next t) :
    ∃ u, step s = .next u ∧ run n u = .next t := by
  rw [run] at h
  split at h
  · next u hstep => exact ⟨u, hstep, h⟩
  · cases h
  · cases h

theorem run_withoutEffect {n : Nat} {s t : State}
    (hin : ∀ cw, .command cw ∈ s.cmdIn.take n → HostInput.ConstructsNothing (.command cw)) (h : run n s = .next t)
    (hs : s.acc = none) : WithoutEffect s t := by
  induction n generalizing s with
  | zero =>
    obtain rfl : s = t := Host.Outcome.next.inj h
    exact .silent hs rfl rfl
  | succ n ih =>
    obtain ⟨u, hstep, hlater⟩ := step_of_run_succ h
    rw [Nat.add_comm, List.take_add, List.drop_one, ← step_cmdIn hstep] at hin
    have hfirst : WithoutEffect s u :=
      step_withoutEffect (fun cw hcw => hin cw (List.mem_append_left _ hcw)) hstep hs
    have ⟨hu, _, _⟩ := hfirst
    exact hfirst.trans (ih (fun cw hcw => hin cw (List.mem_append_right _ hcw)) hlater hu)

/-- Settles O54: `run_withoutEffect`, and the seeded accumulator of a CONFIG with a legal width. -/
theorem nothingWorksBeforeConfig : Obligations.NothingWorksBeforeConfig := by
  refine ⟨fun n s t hs hin h => run_withoutEffect (fun cw hcw => ⟨cw, rfl, ?constructs⟩) h hs,
    fun s _ cw later hc hop hpos hle => ?config⟩
  case constructs => exact Decidable.not_or_of_imp (hin cw hcw)
  case config =>
    rw [stepRunsTheDecodedCommand s cw later hc, decode_of_op_eq_zero hop,
      exec_config_legal ((widthLegal_iff _).2 ⟨hpos, hle⟩)]
    exact ⟨_, _, rfl, rfl, rfl⟩

/-! ### Edges over which the block waits (R61, R167, R185) -/

section Waiting
variable (acc : Option Accumulator) (log : PortLog) (cw : CommandWord) (payload : List Element) {edges : List EdgeIn}

theorem Wire.run_idle (h : ∀ inp ∈ edges, inp.rst = false ∧ inp.cmdValid = false) :
    Wire.run edges (⟨acc, .idle⟩, log) = (⟨acc, .idle⟩, log) :=
  Wire.run_of_unchanged
    (fun _ ⟨hrst, hcmd⟩ => ⟨by simp [Wire.edge_idle acc hrst, hcmd], PortLog.edge_idle acc log hrst⟩) edges h

theorem Wire.run_collecting (h : ∀ inp ∈ edges, inp.rst = false ∧ inp.datValid = false) :
    Wire.run edges (⟨acc, .collecting cw payload⟩, log) = (⟨acc, .collecting cw payload⟩, log) :=
  Wire.run_of_unchanged
    (fun _ ⟨hrst, hdat⟩ =>
      ⟨by simp [Wire.edge_collecting acc hrst, hdat], by simp [PortLog.edge_collecting acc log hrst, hdat]⟩) edges h

theorem Wire.run_executing (h : ∀ inp ∈ edges, inp.rst = false ∧ inp.finish = false) :
    Wire.run edges (⟨acc, .executing cw payload⟩, log) = (⟨acc, .executing cw payload⟩, log) :=
  Wire.run_of_unchanged
    (fun _ ⟨hrst, hfinish⟩ =>
      ⟨by simp [Wire.edge_executing acc hrst, hfinish], PortLog.edge_executing acc log hrst cw payload⟩) edges h

theorem Wire.run_responding (r : Response) (h : ∀ inp ∈ edges, inp.rst = false ∧ inp.rspReady = false) :
    Wire.run edges (⟨acc, .responding cw payload r⟩, log) = (⟨acc, .responding cw payload r⟩, log) :=
  Wire.run_of_unchanged
    (fun _ ⟨hrst, hready⟩ =>
      ⟨by simp [Wire.edge_responding acc hrst, hready], by simp [PortLog.edge_responding acc log hrst, hready]⟩)
    edges h

end Waiting

/-- Settles O55: `exec_eq_fault` for the missing elements, `Wire.run_collecting` for the block that waits for them. -/
theorem missingPayloadHangs : Obligations.MissingPayloadHangs := by
  refine ⟨fun s a len ha hshort => exec_eq_fault (takePayload_eq_none.2 ?missing),
    fun edges w log cw got hw h => ?waits⟩
  case missing => rwa [ha, elementsTaken_some, Instr.payloadLength]
  case waits =>
    obtain ⟨acc, phase⟩ := w
    subst hw
    exact ⟨Wire.run_collecting acc log cw got h, rfl, rfl⟩

/-! ### One command from acceptance to answer (R61, R187) -/

section Answer
variable {acc : Option Accumulator} {cw : CommandWord} (log : PortLog)

theorem holding_of_lt {got : List Element} (h : got.length < elementsTaken acc (decode cw)) :
    holding acc cw got = .collecting cw got := if_pos h

theorem holding_of_eq {payload : List Element} (h : payload.length = elementsTaken acc (decode cw)) :
    holding acc cw payload = .executing cw payload := if_neg (Nat.not_lt_of_le (Nat.le_of_eq h.symm))

/-- The elements still missing arrive, each after any number of edges: the block then executes with all of them. -/
theorem Wire.run_elements {elements : List (List EdgeIn × EdgeIn)} {got : List Element}
    (h : ∀ e ∈ elements, (∀ q ∈ e.1, q.rst = false ∧ q.datValid = false) ∧ e.2.rst = false ∧ e.2.datValid = true)
    (hlen : got.length + elements.length = elementsTaken acc (decode cw)) :
    Wire.run (elements.flatMap fun e => e.1 ++ [e.2]) (⟨acc, holding acc cw got⟩, log) =
      (⟨acc, .executing cw (got ++ elements.map fun e => e.2.datElem)⟩,
        { log with elements := log.elements ++ elements.map fun e => e.2.datElem }) := by
  induction elements generalizing got log with
  | nil => simp [holding_of_eq (show got.length = _ from hlen)]
  | cons e elements ih =>
    obtain ⟨⟨hbefore, hrst, hvalid⟩, hlater⟩ := List.forall_mem_cons.1 h
    rw [List.length_cons] at hlen
    have hmissing : got.length < elementsTaken acc (decode cw) := by omega
    have htaken : (got ++ [e.2.datElem]).length + elements.length = elementsTaken acc (decode cw) := by simp; omega
    rw [List.flatMap_cons, Wire.run_append, Wire.run_append, holding_of_lt hmissing,
      Wire.run_collecting acc log cw got hbefore, Wire.run_cons, Wire.run_nil, Wire.edge_collecting acc hrst,
      PortLog.edge_collecting acc log hrst, if_pos hvalid, if_pos hvalid, ih _ hlater htaken]
    simp

theorem Wire.run_accept {inp : EdgeIn} (h : inp.rst = false ∧ inp.cmdValid = true) :
    Wire.run [inp] (⟨acc, .idle⟩, log) = (⟨acc, holding acc inp.cmd []⟩, log) := by
  simp [Wire.edge_idle acc h.1, PortLog.edge_idle acc log h.1, h.2]

theorem Wire.run_finish {inp : EdgeIn} (h : inp.rst = false ∧ inp.finish = true) {payload : List Element}
    (hlen : payload.length = elementsTaken acc (decode cw)) :
    Wire.run [inp] (⟨acc, .executing cw payload⟩, log) =
      (⟨(result (decode cw) payload acc).1, .responding cw payload (result (decode cw) payload acc).2⟩, log) := by
  simp [Wire.edge_executing acc h.1, PortLog.edge_executing acc log h.1, h.2,
    Wire.execute_eq (w := ⟨acc, .executing cw payload⟩) hlen]

theorem Wire.run_take {inp : EdgeIn} (h : inp.rst = false ∧ inp.rspReady = true) (payload : List Element)
    (r : Response) :
    Wire.run [inp] (⟨acc, .responding cw payload r⟩, log) =
      (⟨acc, .idle⟩, { log with inputs := log.inputs ++ [.command cw], responses := log.responses ++ [r] }) := by
  simp [Wire.edge_responding acc h.1, PortLog.edge_responding acc log h.1, h.2]

/-- A proper schedule's edges carry its command out whole and hand over its response. -/
theorem Schedule.Proper.run_edges {p : Schedule} (h : p.Proper)
    (hlen : p.payload.length = elementsTaken acc (decode p.accept.cmd)) :
    Wire.run p.edges (⟨acc, .idle⟩, log) =
      (⟨(result (decode p.accept.cmd) p.payload acc).1, .idle⟩,
        ⟨log.inputs ++ [.command p.accept.cmd], log.elements ++ p.payload,
          log.responses ++ [(result (decode p.accept.cmd) p.payload acc).2]⟩) := by
  have helements : ([] : List Element).length + p.elements.length = elementsTaken acc (decode p.accept.cmd) := by
    rw [List.length_nil, Nat.zero_add, ← p.payload_length, hlen]
  simp only [Schedule.edges, Wire.run_append]
  rw [Wire.run_idle acc log h.idle, Wire.run_accept log h.accept, Wire.run_elements log h.elements helements,
    List.nil_append, ← Schedule.payload, Wire.run_executing _ _ _ _ h.executing, Wire.run_finish _ h.finish hlen,
    Wire.run_responding _ _ _ _ _ h.waiting, Wire.run_take _ h.take]

end Answer

/-- Settles O58: `exec` gives the command's result, and the edges carry it out (`Schedule.Proper.run_edges`). -/
theorem everyCommandIsAnswered : Obligations.EveryCommandIsAnswered := by
  intro w log p hidle hp hlen
  obtain ⟨acc, phase⟩ := w
  subst hidle
  have hexec := exec_of_payload hlen [] [] []
  rw [List.append_nil, List.nil_append] at hexec
  exact ⟨_, _, hexec, hp.run_edges log hlen⟩

end Sys2Proof.Machine

/-! SUPPORT. The statements of 40_config.md on single bits and on the table, and those of 42_process.md on what a fold
computes: linearity, the remainder of polynomial division, and the corner cases. -/

namespace Sys2Proof.Machine

/-! ### The single-bit steps over unbounded numbers (R94, R95) -/

theorem toNat_shiftLeft_and_mask {n : Nat} (h : n ≤ 64) (k : Nat) (r : Word) :
    ((r <<< k) &&& mask n).toNat = (r.toNat <<< k) &&& (2 ^ n - 1) := by
  rw [BitVec.toNat_and, toNat_mask h, BitVec.toNat_shiftLeft, Nat.and_two_pow_sub_one_eq_mod,
    Nat.and_two_pow_sub_one_eq_mod, Nat.mod_mod_of_dvd _ (Nat.pow_dvd_pow 2 h)]

theorem toNat_stepMSB {c : Cfg} (hc : c.Legal) (r : Word) (d : Bool) :
    (stepMSB c r d).toNat =
      ((r.toNat <<< 1) &&& (2 ^ c.w - 1)) ^^^
        (if (r.toNat.testBit (c.w - 1) ^^ d) = true then c.poly.toNat else 0) := by
  rw [stepMSB_eq_xor, BitVec.toNat_xor, toNat_shiftLeft_and_mask hc.width_le, apply_ite BitVec.toNat]
  rfl

theorem toNat_stepLSB (c : Cfg) (r : Word) (d : Bool) :
    (stepLSB c r d).toNat =
      (r.toNat >>> 1) ^^^ (if (r.toNat.testBit 0 ^^ d) = true then (prefl c).toNat else 0) := by
  rw [stepLSB_eq_xor, BitVec.toNat_xor, BitVec.toNat_ushiftRight, apply_ite BitVec.toNat]
  rfl

theorem xor_ite_zero (p : Prop) [Decidable p] (m n : Nat) : (m ^^^ if p then n else 0) = if p then m ^^^ n else m := by
  rw [apply_ite (m ^^^ ·), Nat.xor_zero]

/-- Settles O19: the shifted register and the polynomial of each step, read as numbers. -/
theorem singleBitSteps : Obligations.SingleBitSteps := by
  intro c r d hc hr
  rw [toNat_stepMSB hc, toNat_stepLSB, xor_ite_zero, xor_ite_zero]
  exact ⟨rfl, rfl, fits_stepMSB hc r d, fits_stepLSB hr d⟩

/-! ### The table is linear (R104, R126) -/

theorem foldBits_zero_zero (c : Cfg) : foldBits c 0 0 = 0 := by
  have hsplit := foldBits_xor c 0 0 0 0
  rwa [BitVec.xor_self, BitVec.xor_self, BitVec.xor_self] at hsplit

/-- R126: a fold is that of a zero byte XORed with the fold of the byte into a zero register. -/
theorem foldBits_eq_xor_foldBits_zero (c : Cfg) (r : Word) (b : Byte) :
    foldBits c r b = foldBits c r 0 ^^^ foldBits c 0 b := by
  rw [← foldBits_xor, show r ^^^ 0 = r from BitVec.xor_zero, show 0 ^^^ b = b from BitVec.zero_xor]

theorem memRead_buildTable_zero {c : Cfg} (hc : c.Legal) : memRead (buildTable c) 0 = 0 := by
  rw [memRead_buildTable_of_legal hc, foldBits_zero_zero]

theorem memRead_buildTable_xor {c : Cfg} (hc : c.Legal) (i j : Byte) :
    memRead (buildTable c) (i ^^^ j) = memRead (buildTable c) i ^^^ memRead (buildTable c) j := by
  simp only [memRead_buildTable_of_legal hc]
  exact foldBits_xor c 0 0 i j

theorem foldBytes_replicate_zero {c : Cfg} (hc : c.Legal) (n : Nat) :
    foldBytes c (buildTable c) 0 (List.replicate n 0) = 0 := by
  induction n with
  | zero => rfl
  | succ n ih =>
    rw [List.replicate_succ, foldBytes_cons, foldTable_eq_foldBits hc (fits_zero _), foldBits_zero_zero, ih]

/-- Settles O36: linearity in register and byte together, and its two special cases. -/
theorem foldIsLinear : Obligations.FoldIsLinear := by
  refine fun c hc => ⟨fun r r' b b' _ _ => foldBits_xor c r r' b b', fun r b _ => ?entry, foldBytes_replicate_zero hc⟩
  case entry => rw [memRead_buildTable_of_legal hc, ← foldBits_eq_xor_foldBits_zero]

/-! ### The usual table generators (R98) -/

/-- Folding a zero byte steps the register eight times with data bit 0. -/
theorem foldBits_zero_byte (c : Cfg) (r : Word) : foldBits c r 0 = (fun r => stepBit c r false)^[8] r := by
  have hlen : (bitOrder c.refin).length = 8 := by cases c.refin <;> rfl
  simp only [foldBits, show (0 : Byte) = 0#8 from rfl, BitVec.getLsbD_zero]
  rw [List.foldl_const, hlen]

/-- A fold of the byte that leaves the right-shifting register only shifts it, whatever the register holds. -/
theorem foldBits_leaving_byte_of_refin {c : Cfg} (h : c.refin = true) (r : Word) :
    foldBits c r (leavingByte c r) = r >>> 8 := by
  have hbits := List.map_congr_left fun k hk => getLsbD_leavingByte_of_refin h r (List.mem_range.1 hk)
  rw [foldBits_of_refin h, hbits, foldl_stepLSB_own_bits]

/-- A register that holds nothing but the byte about to leave it generates that byte's entry. -/
theorem iterate_stepBit_eq_entry {c : Cfg} (hc : c.Legal) {r : Word} {i : Byte} (hleaving : leavingByte c r = i)
    (hempty : foldBits c r (leavingByte c r) = 0) :
    (fun r => stepBit c r false)^[8] r = memRead (buildTable c) i := by
  rw [hleaving, foldBits_eq_xor_foldBits_zero] at hempty
  rw [← foldBits_zero_byte, memRead_buildTable_of_legal hc, BitVec.xor_eq_zero_iff.1 hempty]

/-- A register shifted left by its width or more is empty. -/
theorem shiftLeft_and_mask_of_le {n k : Nat} (h : n ≤ k) (r : Word) : (r <<< k) &&& mask n = 0 := by
  refine BitVec.eq_of_getLsbD_eq fun i _ => ?_
  rw [getLsbD_and_mask, BitVec.getLsbD_shiftLeft]
  rcases Nat.lt_or_ge i n with hi | hi
  · simp [Nat.lt_of_lt_of_le hi h]
  · simp [Nat.not_lt.2 hi]

theorem setWidth_ushiftRight_byte (i : Byte) : i.setWidth 64 >>> 8 = 0#64 :=
  BitVec.eq_of_toNat_eq (by simp [Nat.shiftRight_eq_div_pow]; omega)

theorem iterate_stepBit_of_refin {c : Cfg} (hc : c.Legal) (h : c.refin = true) (i : Byte) :
    (fun r => stepBit c r false)^[8] (i.setWidth 64) = memRead (buildTable c) i := by
  refine iterate_stepBit_eq_entry hc ?leaving ?empty
  case leaving => simp [leavingByte, h]
  case empty => rw [foldBits_leaving_byte_of_refin h, setWidth_ushiftRight_byte]; rfl

theorem iterate_stepBit_of_not_refin {c : Cfg} (hc : c.Legal) (h : c.refin = false) (hw : 8 ≤ c.w) (i : Byte) :
    (fun r => stepBit c r false)^[8] (i.setWidth 64 <<< (c.w - 8)) = memRead (buildTable c) i := by
  have hle : c.w ≤ 64 := hc.width_le
  have hbit (k : Nat) : (i.setWidth 64 <<< (c.w - 8)).getLsbD (c.w - 8 + k) = i.getLsbD k := by
    rcases Nat.lt_or_ge k 8 with hk | hk
    · have hin : c.w - 8 + k < 64 ∧ k < 64 := by omega
      simp [hin]
    · simp [BitVec.getLsbD_of_ge i k hk]
  have hfits : fits c.w (i.setWidth 64 <<< (c.w - 8)) := (fits_iff _ _).2 fun k hk => by
    rw [show k = c.w - 8 + (k - (c.w - 8)) by omega, hbit, BitVec.getLsbD_of_ge _ _ (by omega)]
  refine iterate_stepBit_eq_entry hc ?leaving ?empty
  case leaving =>
    rw [leavingByte, if_neg (by simp [h]), if_pos hw]
    refine BitVec.eq_of_getLsbD_eq fun k hk => ?_
    rw [BitVec.getLsbD_setWidth, BitVec.getLsbD_ushiftRight, hbit, decide_eq_true hk, Bool.true_and]
  case empty =>
    rw [foldBits_leaving_byte hc hfits, shiftByte, if_neg (by simp [h]), ← BitVec.shiftLeft_add,
      shiftLeft_and_mask_of_le (by omega)]

/-- Settles O24: both generators are the bit-serial step of their convention with data bit 0. -/
theorem usualTableGenerators : Obligations.UsualTableGenerators := by
  refine fun c i hc => ⟨fun h => ?reflected, fun h hw => ?nonReflected⟩
  case reflected =>
    rw [← iterate_stepBit_of_refin hc h]
    simp only [stepBit_of_refin h, stepLSB_eq_xor, Bool.xor_false]
  case nonReflected =>
    rw [← iterate_stepBit_of_not_refin hc h hw]
    simp only [stepBit_of_not_refin h, stepMSB_eq_xor, Bool.xor_false]

/-! ### The entries that are the polynomial, and the zero polynomial (R104) -/

/-- What the configured convention XORs in. -/
def feedback (c : Cfg) : Word := if c.refin then prefl c else c.poly

theorem stepBit_zero (c : Cfg) (d : Bool) : stepBit c 0#64 d = if d = true then feedback c else 0#64 := by
  cases h : c.refin <;> cases d <;> simp [stepBit, stepLSB, stepMSB, feedback, h]

theorem feedback_of_poly_zero {c : Cfg} (hc : c.Legal) (hp : c.poly = 0) : feedback c = 0 := by
  rw [feedback, prefl, hp, rev_zero hc.width_le, ite_self]

/-- Zero bits leave the zero register as it is; a last bit that is set XORs the polynomial in. -/
theorem foldl_stepBit_zero_of_last_set (c : Cfg) (n : Nat) :
    (List.replicate n false ++ [true]).foldl (stepBit c) 0#64 = feedback c := by
  induction n with
  | zero => exact stepBit_zero c true
  | succ n ih => rwa [List.replicate_succ, List.cons_append, List.foldl_cons, stepBit_zero, if_neg nofun]

theorem memRead_buildTable_one {c : Cfg} (hc : c.Legal) (h : c.refin = false) :
    memRead (buildTable c) 0x01#8 = c.poly := by
  rw [memRead_buildTable_of_legal hc, foldBits_eq_foldl, h]
  exact (foldl_stepBit_zero_of_last_set c 7).trans (by simp [feedback, h])

theorem memRead_buildTable_high_bit {c : Cfg} (hc : c.Legal) (h : c.refin = true) :
    memRead (buildTable c) 0x80#8 = prefl c := by
  rw [memRead_buildTable_of_legal hc, foldBits_eq_foldl, h]
  exact (foldl_stepBit_zero_of_last_set c 7).trans (by simp [feedback, h])

theorem memRead_buildTable_of_poly_zero {c : Cfg} (hc : c.Legal) (hp : c.poly = 0) (i : Byte) :
    memRead (buildTable c) i = 0 := by
  have hstep (k : Nat) : stepBit c 0#64 (i.getLsbD k) = 0#64 := by
    rw [stepBit_zero, feedback_of_poly_zero hc hp]
    exact ite_self _
  rw [memRead_buildTable_of_legal hc, foldBits]
  exact List.foldl_fixed' hstep _

/-! ### Width 1 with polynomial 1: the parity (R104, R128) -/

/-- The parity of a number of bits, as a 1-bit register. -/
def parity (n : Nat) : Word := if n % 2 = 1 then 1 else 0

theorem parity_add (m n : Nat) : parity (m + n) = parity m ^^^ parity n := by
  unfold parity
  rcases Nat.mod_two_eq_zero_or_one m with hm | hm <;> rcases Nat.mod_two_eq_zero_or_one n with hn | hn <;>
    simp [Nat.add_mod, hm, hn]

theorem eq_zero_or_eq_one_of_fits {v : Word} (h : fits 1 v) : v = 0#64 ∨ v = 1#64 :=
  (Nat.le_one_iff_eq_zero_or_eq_one.1 (Nat.le_of_lt_succ h)).imp BitVec.eq_of_toNat_eq BitVec.eq_of_toNat_eq

/-- The positions of a byte's set bits. -/
def setBits (b : Byte) : List Nat := (List.range 8).filter fun k => b.getLsbD k

section WidthOne
variable {c : Cfg} (hw : c.w = 1) (hp : c.poly = 1)
include hw hp

theorem prefl_of_width_one : prefl c = 1 := by rw [prefl, hw, hp, rev_one (by decide)]

/-- The set bit of a 1-bit register leaves it, and is put back by the polynomial. -/
theorem stepBit_one_of_width_one : stepBit c 1#64 false = 1#64 := by
  cases h : c.refin with
  | true => rw [stepBit_of_refin h, stepLSB_eq_xor, prefl_of_width_one hw hp]; rfl
  | false => rw [stepBit_of_not_refin h, stepMSB_eq_xor, hp, hw]; decide

theorem stepBit_of_width_one {r : Word} (hr : fits c.w r) (d : Bool) :
    stepBit c r d = r ^^^ if d = true then 1#64 else 0#64 := by
  have hreg : stepBit c r false = r := by
    obtain rfl | rfl := eq_zero_or_eq_one_of_fits (hw ▸ hr)
    · exact stepBit_zero c false
    · exact stepBit_one_of_width_one hw hp
  calc stepBit c r d = stepBit c (r ^^^ 0#64) (false ^^ d) := by rw [BitVec.xor_zero, Bool.false_xor]
    _ = r ^^^ if d = true then 1#64 else 0#64 := by
      rw [stepBit_xor, hreg, stepBit_zero, feedback, prefl_of_width_one hw hp, hp, ite_self]; rfl

variable (hc : c.Legal)
include hc

/-- The bits are XORed into the register, in whatever order. -/
theorem foldl_stepBit_of_width_one {r : Word} (hr : fits c.w r) (b : Byte) (ks : List Nat) :
    ks.foldl (fun r k => stepBit c r (b.getLsbD k)) r = r ^^^ parity (ks.filter fun k => b.getLsbD k).length := by
  induction ks generalizing r with
  | nil => exact BitVec.xor_zero.symm
  | cons k ks ih =>
    have hparity : parity ((k :: ks).filter fun k => b.getLsbD k).length =
        (if b.getLsbD k = true then 1#64 else 0#64) ^^^ parity (ks.filter fun k => b.getLsbD k).length := by
      rw [List.filter_cons]
      split
      · rw [List.length_cons, Nat.add_comm, parity_add]; rfl
      · exact BitVec.zero_xor.symm
    rw [List.foldl_cons, ih (fits_stepBit hc hr _), stepBit_of_width_one hw hp hr, hparity, BitVec.xor_assoc]

theorem foldBits_of_width_one {r : Word} (hr : fits c.w r) (b : Byte) :
    foldBits c r b = r ^^^ parity (setBits b).length := by
  have hperm : (bitOrder c.refin).Perm (List.range 8) := by cases c.refin <;> decide
  rw [foldBits, foldl_stepBit_of_width_one hw hp hc hr, (hperm.filter _).length_eq, setBits]

theorem foldBytes_of_width_one {r : Word} (hr : fits c.w r) (bytes : List Byte) :
    foldBytes c (buildTable c) r bytes = r ^^^ parity (bytes.flatMap setBits).length := by
  induction bytes generalizing r with
  | nil => exact BitVec.xor_zero.symm
  | cons b bytes ih =>
    rw [foldBytes_cons, ih (fits_foldTable hr b), foldTable_eq_foldBits hc hr, foldBits_of_width_one hw hp hc hr,
      List.flatMap_cons, List.length_append, parity_add, BitVec.xor_assoc]

end WidthOne

/-- Settles O25, one lemma for each clause. -/
theorem tableProperties : Obligations.TableProperties := by
  refine fun c hc => ⟨memRead_buildTable_zero hc, memRead_buildTable_xor hc, memRead_buildTable_one hc,
    memRead_buildTable_high_bit hc, memRead_buildTable_of_poly_zero hc, fun hw hp i => ?parity⟩
  case parity =>
    rw [memRead_buildTable_of_legal hc, foldBits_of_width_one hw hp hc (fits_zero _)]
    exact BitVec.zero_xor

/-! ### The corner cases of a fold (R128) -/

/-- A fold at index 0 reads entry 0 and so only shifts. -/
theorem foldTable_of_index_zero {c : Cfg} (hc : c.Legal) {r : Word} {b : Byte} (h : tableIndex c r b = 0) :
    foldTable c (buildTable c) r b = shiftByte c r := by
  rw [foldTable_eq_xor, h, memRead_buildTable_zero hc]
  exact BitVec.xor_zero

theorem foldTable_of_poly_zero {c : Cfg} (hc : c.Legal) (hp : c.poly = 0) (r : Word) (b : Byte) :
    foldTable c (buildTable c) r b = shiftByte c r := by
  rw [foldTable_eq_xor, memRead_buildTable_of_poly_zero hc hp]
  exact BitVec.xor_zero

theorem and_mask_shiftLeft_and_mask (n k : Nat) (v : Word) :
    ((v &&& mask n) <<< k) &&& mask n = (v <<< k) &&& mask n := by
  refine BitVec.eq_of_getLsbD_eq fun i _ => ?_
  rw [getLsbD_and_mask, getLsbD_and_mask, BitVec.getLsbD_shiftLeft, BitVec.getLsbD_shiftLeft, getLsbD_and_mask]
  rcases Nat.lt_or_ge i n with hi | hi
  · simp [Nat.lt_of_le_of_lt (Nat.sub_le i k) hi]
  · simp [Nat.not_lt.2 hi]

theorem iterate_shiftByte_of_refin {c : Cfg} (h : c.refin = true) (r : Word) (n : Nat) :
    (shiftByte c)^[n] r = r >>> (8 * n) := by
  induction n with
  | zero => simp
  | succ n ih => rw [Function.iterate_succ_apply', ih, shiftByte, if_pos h, Nat.mul_succ, BitVec.shiftRight_add]

theorem iterate_shiftByte_of_not_refin {c : Cfg} (h : c.refin = false) {r : Word} (hr : fits c.w r) (n : Nat) :
    (shiftByte c)^[n] r = (r <<< (8 * n)) &&& mask c.w := by
  induction n with
  | zero => rw [Function.iterate_zero_apply, Nat.mul_zero, BitVec.shiftLeft_zero, and_mask_of_fits hr]
  | succ n ih =>
    rw [Function.iterate_succ_apply', ih, shiftByte, if_neg (by simp [h]), and_mask_shiftLeft_and_mask, Nat.mul_succ,
      BitVec.shiftLeft_add]

/-- W bits' worth of byte shifts empty the register. -/
theorem iterate_shiftByte_eq_zero {c : Cfg} {r : Word} (hr : fits c.w r) {n : Nat} (hn : c.w ≤ 8 * n) :
    (shiftByte c)^[n] r = 0 := by
  cases h : c.refin with
  | true =>
    rw [iterate_shiftByte_of_refin h]
    refine BitVec.eq_of_getLsbD_eq fun i _ => ?_
    rw [BitVec.getLsbD_ushiftRight, fits_getLsbD hr (by omega)]
    exact BitVec.getLsbD_zero.symm
  | false => rw [iterate_shiftByte_of_not_refin h hr, shiftLeft_and_mask_of_le hn]

theorem foldBytes_of_poly_zero {c : Cfg} (hc : c.Legal) (hp : c.poly = 0) (r : Word) (bytes : List Byte) :
    foldBytes c (buildTable c) r bytes = (shiftByte c)^[bytes.length] r := by
  have hfold : foldTable c (buildTable c) = fun r _ => shiftByte c r :=
    funext fun r => funext fun b => foldTable_of_poly_zero hc hp r b
  rw [foldBytes, hfold, List.foldl_const]

/-- A register of a whole byte leaves in one fold (R128). -/
theorem foldTable_of_width_eight {c : Cfg} (hw : c.w = 8) {r : Word} (hr : fits c.w r) (table : Memory) (b : Byte) :
    foldTable c table r b = memRead table (r.setWidth 8 ^^^ b) := by
  have hshift : shiftByte c r = 0 := iterate_shiftByte_eq_zero (n := 1) hr hw.le
  have hleaving : leavingByte c r = r.setWidth 8 := by
    cases h : c.refin <;> simp [leavingByte, h, hw]
  rw [foldTable_eq_xor, tableIndex_eq_xor, hshift, hleaving]
  exact BitVec.zero_xor

/-- Settles O38, one lemma for each clause. -/
theorem foldCornerCases : Obligations.FoldCornerCases := by
  refine fun c r hc hr => ⟨fun hp => ⟨foldTable_of_poly_zero hc hp r, fun bytes hlen => ?cleared⟩,
    fun b => foldTable_of_index_zero hc, fun hw => foldTable_of_width_eight hw hr _, fun hw hp bytes => ?parity⟩
  case cleared => rw [foldBytes_of_poly_zero hc hp, iterate_shiftByte_eq_zero hr hlen]
  case parity => exact foldBytes_of_width_one hw hp hc hr bytes

/-! ### The remainder of polynomial division (R127) -/

/-- Numbers whose bits do not overlap add as they XOR. -/
theorem two_pow_mul_add_eq_xor {i b : Nat} (h : b < 2 ^ i) (a : Nat) : 2 ^ i * a + b = (a <<< i) ^^^ b := by
  refine Nat.eq_of_testBit_eq fun j => ?_
  rw [Nat.testBit_two_pow_mul_add a h, Nat.testBit_xor, Nat.testBit_shiftLeft]
  rcases Nat.lt_or_ge j i with hj | hj
  · simp [hj, Nat.not_le.2 hj]
  · simp [hj, Nat.not_lt.2 hj, Nat.testBit_lt_two_pow (Nat.lt_of_lt_of_le h (Nat.pow_le_pow_right (by decide) hj))]

theorem messagePoly_concat (bits : List Bool) (d : Bool) :
    messagePoly (bits ++ [d]) = (messagePoly bits <<< 1) ^^^ d.toNat := by
  rw [← two_pow_mul_add_eq_xor d.toNat_lt, messagePoly, List.foldl_concat]
  rfl

theorem quotientTimes_concat (quotient : List Bool) (q : Bool) (g : Nat) :
    quotientTimes (quotient ++ [q]) g = (quotientTimes quotient g <<< 1) ^^^ (if q = true then g else 0) := by
  rw [quotientTimes, List.foldl_concat, Nat.shiftLeft_eq, Nat.pow_one, Nat.mul_comm]
  rfl

theorem generator_eq_xor {c : Cfg} (hc : c.Legal) : generator c = (1 <<< c.w) ^^^ c.poly.toNat := by
  rw [generator, ← two_pow_mul_add_eq_xor hc.poly_fits, Nat.mul_one]

/-- The bit that leaves a W-bit register is its coefficient of x^W once it is multiplied by x. -/
theorem shiftLeft_one_and_mask_eq_xor {n w : Nat} (hw : 1 ≤ w) (hn : n < 2 ^ w) :
    (n <<< 1) &&& (2 ^ w - 1) = ((n.testBit (w - 1)).toNat <<< w) ^^^ (n <<< 1) := by
  obtain ⟨k, rfl⟩ := Nat.exists_eq_add_of_le' hw
  have hleaving : (n.testBit k).toNat = (n <<< 1) / 2 ^ (k + 1) := by
    have hlt : n / 2 ^ k < 2 := Nat.div_lt_of_lt_mul (hn.trans_eq (Nat.pow_succ ..))
    rw [Nat.toNat_testBit, Nat.mod_eq_of_lt hlt, Nat.shiftLeft_eq, Nat.pow_one, Nat.pow_succ,
      Nat.mul_div_mul_right _ _ Nat.two_pos]
  have hdivision := two_pow_mul_add_eq_xor (Nat.mod_lt (n <<< 1) (Nat.two_pow_pos (k + 1))) ((n <<< 1) / 2 ^ (k + 1))
  rw [Nat.div_add_mod, ← hleaving] at hdivision
  rw [Nat.add_sub_cancel, Nat.and_two_pow_sub_one_eq_mod]
  exact (Nat.xor_xor_cancel_left ..).symm.trans (congrArg _ hdivision.symm)

/-- A step multiplies the register by x, adds the data bit at x^W, and takes the generator off a sum of degree W. -/
theorem toNat_stepMSB_eq_xor_generator {c : Cfg} (hc : c.Legal) {r : Word} (hr : fits c.w r) (d : Bool) :
    (stepMSB c r d).toNat =
      (r.toNat <<< 1) ^^^ (d.toNat <<< c.w) ^^^
        (if (r.toNat.testBit (c.w - 1) ^^ d) = true then generator c else 0) := by
  rw [toNat_stepMSB hc, shiftLeft_one_and_mask_eq_xor hc.width_pos hr, generator_eq_xor hc]
  cases r.toNat.testBit (c.w - 1) <;> cases d <;> simp [Nat.xor_comm, Nat.xor_left_comm]

/-- One more data bit keeps the division: the quotient's next bit says whether the generator was taken off. -/
theorem isRemainder_stepMSB {c : Cfg} (hc : c.Legal) {dividend : Nat} {r : Word} (d : Bool)
    (h : isRemainder dividend (generator c) c.w r.toNat) :
    isRemainder ((dividend <<< 1) ^^^ (d.toNat <<< c.w)) (generator c) c.w (stepMSB c r d).toNat := by
  obtain ⟨hr, quotient, rfl⟩ := h
  refine ⟨fits_stepMSB hc r d, quotient ++ [r.toNat.testBit (c.w - 1) ^^ d], ?_⟩
  rw [quotientTimes_concat, toNat_stepMSB_eq_xor_generator hc hr, Nat.shiftLeft_xor_distrib]
  -- the generator stands in the new quotient and in the new register, and cancels
  simp only [Nat.xor_assoc, Nat.xor_comm, Nat.xor_left_comm, Nat.xor_xor_cancel_left]

theorem isRemainder_foldl_stepMSB {c : Cfg} (hc : c.Legal) {seed : Word} (hseed : fits c.w seed) (bits : List Bool) :
    isRemainder ((messagePoly bits <<< c.w) ^^^ (seed.toNat <<< bits.length)) (generator c) c.w
      (bits.foldl (stepMSB c) seed).toNat := by
  induction bits using List.reverseRecOn with
  | nil => exact ⟨hseed, [], by simp [messagePoly, quotientTimes]⟩
  | append_singleton bits d ih =>
    have hdividend : (messagePoly (bits ++ [d]) <<< c.w) ^^^ (seed.toNat <<< (bits ++ [d]).length) =
        (((messagePoly bits <<< c.w) ^^^ (seed.toNat <<< bits.length)) <<< 1) ^^^ (d.toNat <<< c.w) := by
      rw [messagePoly_concat]
      simp only [Nat.shiftLeft_xor_distrib, ← Nat.shiftLeft_add, List.length_append, List.length_singleton]
      rw [Nat.add_comm 1]
      ac_rfl
    rw [List.foldl_concat, hdividend]
    exact isRemainder_stepMSB hc d ih

theorem length_messageBits (refin : Bool) (message : List Byte) :
    (messageBits refin message).length = 8 * message.length := by
  have hlen : (bitOrder refin).length = 8 := by cases refin <;> rfl
  simp [messageBits, hlen, Nat.mul_comm]

theorem foldBytes_eq_foldl_messageBits {c : Cfg} (hc : c.Legal) {r : Word} (hr : fits c.w r) (message : List Byte) :
    foldBytes c (buildTable c) r message = (messageBits c.refin message).foldl (stepBit c) r := by
  rw [foldBytes_buildTable_eq_foldl hc hr, messageBits, List.foldl_flatMap]
  simp only [← foldBits_eq_foldl]

/-- The right-shifting step is the left-shifting one on the reversed register. -/
theorem stepLSB_rev {c : Cfg} (hc : c.Legal) (r : Word) (d : Bool) :
    stepLSB c (rev c.w r) d = rev c.w (stepMSB c r d) := by
  have hleaving : (rev c.w r).getLsbD 0 = r.getLsbD (c.w - 1) := getLsbD_rev_of_lt hc.width_le hc.width_pos r
  rw [stepLSB_eq_xor, stepMSB_eq_xor, rev_xor, apply_ite (rev c.w), rev_zero hc.width_le, ← ushiftRight_rev hc.width_le,
    hleaving, prefl]

theorem foldl_stepLSB_rev {c : Cfg} (hc : c.Legal) (r : Word) (bits : List Bool) :
    bits.foldl (stepLSB c) (rev c.w r) = rev c.w (bits.foldl (stepMSB c) r) :=
  List.foldl_hom (rev c.w) (stepLSB_rev hc)

/-- Settles O37: the division of `isRemainder_foldl_stepMSB`; reflected, that of the reversed register. -/
theorem registerIsTheRemainder : Obligations.RegisterIsTheRemainder := by
  intro c message hc
  dsimp only
  rw [foldBytes_eq_foldl_messageBits hc hc.init_fits, ← length_messageBits c.refin]
  refine ⟨fun h => ?nonReflected, fun h => ?reflected⟩
  case nonReflected =>
    rw [stepBit_of_not_refin h]
    exact isRemainder_foldl_stepMSB hc hc.init_fits _
  case reflected =>
    obtain ⟨hfits, hquotient⟩ :=
      isRemainder_foldl_stepMSB hc (fits_rev c.w c.init) (messageBits c.refin message)
    have hreversed := foldl_stepLSB_rev hc (rev c.w c.init) (messageBits c.refin message)
    rw [rev_rev hc.width_le hc.init_fits, ← stepBit_of_refin h] at hreversed
    rw [hreversed, rev_rev hc.width_le hfits]
    exact ⟨hfits, hquotient⟩

end Sys2Proof.Machine
